-- ==== Sys2Proof/Word.lean ====
section
/-! DEFINITION. The word types of the core (R7, R20, R25, R28, R31, R72 to R76): all values are unsigned (R9). -/

namespace Sys2Proof

/-- A general register, a timer, a memory byte, the immediate NN: 8 bits (R20, R31, R35, R75). -/
abbrev Byte := BitVec 8

/-- PC, I, a stack entry, an instruction word: 16 bits (R25, R28, R29, R70). -/
abbrev Word := BitVec 16

/-- The 12-bit address field NNN (R76). -/
abbrev Addr := BitVec 12

/-- The 4-bit immediate N, DXYN's row count (R74). -/
abbrev Nibble := BitVec 4

/-- A general register's index, 0 to 15: no register access can go out of range (R20, R22, R72, R73). -/
abbrev RegIdx := Fin 16

/-- Register 15, VF, the flag register (R21). -/
abbrev vF : RegIdx := 15

end Sys2Proof
end

