-- ==== Sys2Proof/Syntax.lean ====
section
/-! DEFINITION. The 34 instructions of R79 (30_encoding.md), one constructor per row of spec/opcode_table.json, and the
assembler notation of R87 and R88. -/

namespace Sys2Proof

/-- A decoded instruction; the constructors are R81's names. -/
inductive Instr where
  /-- 00E0 `CLS` (R180) -/
  | cls
  /-- 00EE `RET` (R110) -/
  | ret
  /-- 1NNN `JP nnn` (R111) -/
  | jp (nnn : Addr)
  /-- 2NNN `CALL nnn` (R112) -/
  | call (nnn : Addr)
  /-- 3XNN `SE Vx, nn` (R113) -/
  | seB (x : RegIdx) (nn : Byte)
  /-- 4XNN `SNE Vx, nn` (R114) -/
  | sneB (x : RegIdx) (nn : Byte)
  /-- 5XY0 `SE Vx, Vy` (R115) -/
  | seR (x y : RegIdx)
  /-- 6XNN `LD Vx, nn` (R133) -/
  | ldB (x : RegIdx) (nn : Byte)
  /-- 7XNN `ADD Vx, nn` (R134) -/
  | addB (x : RegIdx) (nn : Byte)
  /-- 8XY0 `LD Vx, Vy` (R135) -/
  | ldR (x y : RegIdx)
  /-- 8XY1 `OR Vx, Vy` (R136) -/
  | orR (x y : RegIdx)
  /-- 8XY2 `AND Vx, Vy` (R137) -/
  | andR (x y : RegIdx)
  /-- 8XY3 `XOR Vx, Vy` (R138) -/
  | xorR (x y : RegIdx)
  /-- 8XY4 `ADD Vx, Vy` (R139) -/
  | addR (x y : RegIdx)
  /-- 8XY5 `SUB Vx, Vy` (R140) -/
  | sub (x y : RegIdx)
  /-- 8XY6 `SHR Vx, Vy` (R141); y is encoded and ignored -/
  | shr (x y : RegIdx)
  /-- 8XY7 `SUBN Vx, Vy` (R142) -/
  | subn (x y : RegIdx)
  /-- 8XYE `SHL Vx, Vy` (R144); y is encoded and ignored -/
  | shl (x y : RegIdx)
  /-- 9XY0 `SNE Vx, Vy` (R116) -/
  | sneR (x y : RegIdx)
  /-- ANNN `LD I, nnn` (R160) -/
  | ldI (nnn : Addr)
  /-- BNNN `JP V0, nnn` (R117) -/
  | jpV0 (nnn : Addr)
  /-- CXNN `RND Vx, nn` (R145) -/
  | rnd (x : RegIdx) (nn : Byte)
  /-- DXYN `DRW Vx, Vy, n` (R181) -/
  | drw (x y : RegIdx) (n : Nibble)
  /-- EX9E `SKP Vx` (R200) -/
  | skp (x : RegIdx)
  /-- EXA1 `SKNP Vx` (R201) -/
  | sknp (x : RegIdx)
  /-- FX07 `LD Vx, DT` (R203) -/
  | ldXDt (x : RegIdx)
  /-- FX0A `LD Vx, K` (R202) -/
  | ldXK (x : RegIdx)
  /-- FX15 `LD DT, Vx` (R204) -/
  | ldDtX (x : RegIdx)
  /-- FX18 `LD ST, Vx` (R205) -/
  | ldStX (x : RegIdx)
  /-- FX1E `ADD I, Vx` (R161) -/
  | addI (x : RegIdx)
  /-- FX29 `LD F, Vx` (R162) -/
  | ldF (x : RegIdx)
  /-- FX33 `LD B, Vx` (R163) -/
  | ldBX (x : RegIdx)
  /-- FX55 `LD [I], Vx` (R164) -/
  | ldMiX (x : RegIdx)
  /-- FX65 `LD Vx, [I]` (R165) -/
  | ldXMi (x : RegIdx)
  deriving DecidableEq, Repr

/-- The mnemonics of R87, the spec's own notation (log entry 29). -/
inductive Mnemonic where
  | cls | ret | jp | call | se | sne | ld | add | or | and | xor | sub | shr | subn | shl | rnd | drw | skp | sknp
  deriving DecidableEq, Repr

/-- An operand as it is written (R87). A number written in a program may be of any size: R89 refuses the ones that fit
no field. -/
inductive Operand where
  /-- `Vn` -/
  | reg (n : Nat)
  /-- a number: nn, nnn or n -/
  | num (n : Nat)
  /-- `I` -/
  | index
  /-- `[I]` -/
  | atIndex
  /-- `DT` -/
  | delay
  /-- `ST` -/
  | sound
  /-- `K` -/
  | keyWait
  /-- `F` -/
  | font
  /-- `B` -/
  | bcd
  deriving DecidableEq, Repr

/-- A line of a program text: an instruction (R87) or one of the two directives `DW` and `DB` (R88). -/
inductive Stmt where
  | instr (m : Mnemonic) (ops : List Operand)
  | dw (n : Nat)
  | db (n : Nat)
  deriving DecidableEq, Repr

end Sys2Proof
end

