-- ==== Sys2Proof/WellFormed.lean ====
section
/-! DEFINITION. Which program lines spell an instruction (R87, R89). An `Instr` is well formed by its type: its register
indices are below 16 and its immediates have their field's width (R22, R72 to R76), so the checks stand where a term can be
ill formed, on the written line, whose operands are numbers of any size. -/

namespace Sys2Proof

/-- `Vn` names a register only for n ≤ 15 (R72, R73). -/
def regOperand (n : Nat) : Option RegIdx :=
  if h : n < 16 then some ⟨n, h⟩ else none

/-- A number spells a w-bit immediate only if it fits the field: n ≤ 0xF, nn ≤ 0xFF, nnn ≤ 0xFFF (R89). -/
def immOperand (w n : Nat) : Option (BitVec w) :=
  if n < 2 ^ w then some (BitVec.ofNat w n) else none

/-- The instruction that takes one register, from its operand. -/
def withReg (n : Nat) (build : RegIdx → Instr) : Option Instr :=
  (regOperand n).map build

/-- The instruction that takes two registers, from its operands. -/
def withRegs (n m : Nat) (build : RegIdx → RegIdx → Instr) : Option Instr :=
  (regOperand n).bind fun x => (regOperand m).map (build x)

/-- The instruction that takes a register and a byte, from its operands. -/
def withRegByte (n k : Nat) (build : RegIdx → Byte → Instr) : Option Instr :=
  (regOperand n).bind fun x => (immOperand 8 k).map (build x)

/-- The instruction that takes an address, from its operand. -/
def withAddr (k : Nat) (build : Addr → Instr) : Option Instr :=
  (immOperand 12 k).map build

/-- The instruction a line spells, by the syntax table of R87; `none` for an operand out of range (R89) or a list of
operands that fits no row. `SHR Vx` and `SHL Vx` are accepted with y = 0 (R87, log entry 29). -/
def assembleInstr : Mnemonic → List Operand → Option Instr
  | .cls, [] => some .cls
  | .ret, [] => some .ret
  | .jp, [.num k] => withAddr k .jp
  | .jp, [.reg 0, .num k] => withAddr k .jpV0
  | .call, [.num k] => withAddr k .call
  | .se, [.reg n, .num k] => withRegByte n k .seB
  | .se, [.reg n, .reg m] => withRegs n m .seR
  | .sne, [.reg n, .num k] => withRegByte n k .sneB
  | .sne, [.reg n, .reg m] => withRegs n m .sneR
  | .ld, [.reg n, .num k] => withRegByte n k .ldB
  | .ld, [.reg n, .reg m] => withRegs n m .ldR
  | .ld, [.index, .num k] => withAddr k .ldI
  | .ld, [.reg n, .delay] => withReg n .ldXDt
  | .ld, [.reg n, .keyWait] => withReg n .ldXK
  | .ld, [.delay, .reg n] => withReg n .ldDtX
  | .ld, [.sound, .reg n] => withReg n .ldStX
  | .ld, [.font, .reg n] => withReg n .ldF
  | .ld, [.bcd, .reg n] => withReg n .ldBX
  | .ld, [.atIndex, .reg n] => withReg n .ldMiX
  | .ld, [.reg n, .atIndex] => withReg n .ldXMi
  | .add, [.reg n, .num k] => withRegByte n k .addB
  | .add, [.reg n, .reg m] => withRegs n m .addR
  | .add, [.index, .reg n] => withReg n .addI
  | .or, [.reg n, .reg m] => withRegs n m .orR
  | .and, [.reg n, .reg m] => withRegs n m .andR
  | .xor, [.reg n, .reg m] => withRegs n m .xorR
  | .sub, [.reg n, .reg m] => withRegs n m .sub
  | .shr, [.reg n, .reg m] => withRegs n m .shr
  | .shr, [.reg n] => withRegs n 0 .shr
  | .subn, [.reg n, .reg m] => withRegs n m .subn
  | .shl, [.reg n, .reg m] => withRegs n m .shl
  | .shl, [.reg n] => withRegs n 0 .shl
  | .rnd, [.reg n, .num k] => withRegByte n k .rnd
  | .drw, [.reg n, .reg m, .num k] =>
      (regOperand n).bind fun x => (regOperand m).bind fun y => (immOperand 4 k).map (.drw x y)
  | .skp, [.reg n] => withReg n .skp
  | .sknp, [.reg n] => withReg n .sknp
  | _, _ => none

/-- The line R87 writes for an instruction. -/
def disassemble : Instr → Mnemonic × List Operand
  | .cls => (.cls, [])
  | .ret => (.ret, [])
  | .jp nnn => (.jp, [.num nnn.toNat])
  | .call nnn => (.call, [.num nnn.toNat])
  | .seB x nn => (.se, [.reg x, .num nn.toNat])
  | .sneB x nn => (.sne, [.reg x, .num nn.toNat])
  | .seR x y => (.se, [.reg x, .reg y])
  | .ldB x nn => (.ld, [.reg x, .num nn.toNat])
  | .addB x nn => (.add, [.reg x, .num nn.toNat])
  | .ldR x y => (.ld, [.reg x, .reg y])
  | .orR x y => (.or, [.reg x, .reg y])
  | .andR x y => (.and, [.reg x, .reg y])
  | .xorR x y => (.xor, [.reg x, .reg y])
  | .addR x y => (.add, [.reg x, .reg y])
  | .sub x y => (.sub, [.reg x, .reg y])
  | .shr x y => (.shr, [.reg x, .reg y])
  | .subn x y => (.subn, [.reg x, .reg y])
  | .shl x y => (.shl, [.reg x, .reg y])
  | .sneR x y => (.sne, [.reg x, .reg y])
  | .ldI nnn => (.ld, [.index, .num nnn.toNat])
  | .jpV0 nnn => (.jp, [.reg 0, .num nnn.toNat])
  | .rnd x nn => (.rnd, [.reg x, .num nn.toNat])
  | .drw x y n => (.drw, [.reg x, .reg y, .num n.toNat])
  | .skp x => (.skp, [.reg x])
  | .sknp x => (.sknp, [.reg x])
  | .ldXDt x => (.ld, [.reg x, .delay])
  | .ldXK x => (.ld, [.reg x, .keyWait])
  | .ldDtX x => (.ld, [.delay, .reg x])
  | .ldStX x => (.ld, [.sound, .reg x])
  | .addI x => (.add, [.index, .reg x])
  | .ldF x => (.ld, [.font, .reg x])
  | .ldBX x => (.ld, [.bcd, .reg x])
  | .ldMiX x => (.ld, [.atIndex, .reg x])
  | .ldXMi x => (.ld, [.reg x, .atIndex])

/-- A line is well formed if it spells an instruction, or is a directive whose number fits its width (R88, R89). -/
def Stmt.wellFormed : Stmt → Bool
  | .instr m ops => (assembleInstr m ops).isSome
  | .dw n => decide (n < 2 ^ 16)
  | .db n => decide (n < 2 ^ 8)

end Sys2Proof
end

