-- ==== Sys2Proof/Decode.lean ====
section
/-! DEFINITION. The decoder (R70 to R86), total on every word and every list of bytes, then the encoder (R78, R79, R89),
the opcode table of R79 as rows, and the bytes of program lines (R88). -/

namespace Sys2Proof

/-- The class nibble, `op[15:12]` (R71). -/
def opClass (op : Word) : BitVec 4 := op.extractLsb' 12 4

/-- Field X, `op[11:8]` (R72). -/
def fieldX (op : Word) : RegIdx := (op.extractLsb' 8 4).toFin

/-- Field Y, `op[7:4]` (R73). -/
def fieldY (op : Word) : RegIdx := (op.extractLsb' 4 4).toFin

/-- Field N, `op[3:0]` (R74). -/
def fieldN (op : Word) : Nibble := op.extractLsb' 0 4

/-- Field NN, `op[7:0]` (R75). -/
def fieldNN (op : Word) : Byte := op.extractLsb' 0 8

/-- Field NNN, `op[11:0]` (R76). -/
def fieldNNN (op : Word) : Addr := op.extractLsb' 0 12

/-- What a word decodes as: an instruction, or R81's `Unrecognized` (R83). -/
inductive Decoded where
  | instr (i : Instr)
  | unrecognized
  deriving DecidableEq, Repr

/-- Class 0x8, by the selector `op[3:0]` (R71, R81). -/
def decodeClass8 (x y : RegIdx) : Nibble → Decoded
  | 0x0#4 => .instr (.ldR x y)
  | 0x1#4 => .instr (.orR x y)
  | 0x2#4 => .instr (.andR x y)
  | 0x3#4 => .instr (.xorR x y)
  | 0x4#4 => .instr (.addR x y)
  | 0x5#4 => .instr (.sub x y)
  | 0x6#4 => .instr (.shr x y)
  | 0x7#4 => .instr (.subn x y)
  | 0xE#4 => .instr (.shl x y)
  | _ => .unrecognized

/-- Class 0xE, by the selector `op[7:0]` (R71, R81). -/
def decodeClassE (x : RegIdx) : Byte → Decoded
  | 0x9E#8 => .instr (.skp x)
  | 0xA1#8 => .instr (.sknp x)
  | _ => .unrecognized

/-- Class 0xF, by the selector `op[7:0]` (R71, R81). -/
def decodeClassF (x : RegIdx) : Byte → Decoded
  | 0x07#8 => .instr (.ldXDt x)
  | 0x0A#8 => .instr (.ldXK x)
  | 0x15#8 => .instr (.ldDtX x)
  | 0x18#8 => .instr (.ldStX x)
  | 0x1E#8 => .instr (.addI x)
  | 0x29#8 => .instr (.ldF x)
  | 0x33#8 => .instr (.ldBX x)
  | 0x55#8 => .instr (.ldMiX x)
  | 0x65#8 => .instr (.ldXMi x)
  | _ => .unrecognized

/-- Decode, the total function of R81. Classes 0x0, 0x5 and 0x9 match their whole pattern (R71, R84; log entry 19). -/
def decodeWord (op : Word) : Decoded :=
  match opClass op with
  | 0x0#4 =>
    if op = 0x00E0#16 then .instr .cls else if op = 0x00EE#16 then .instr .ret else .unrecognized
  | 0x1#4 => .instr (.jp (fieldNNN op))
  | 0x2#4 => .instr (.call (fieldNNN op))
  | 0x3#4 => .instr (.seB (fieldX op) (fieldNN op))
  | 0x4#4 => .instr (.sneB (fieldX op) (fieldNN op))
  | 0x5#4 => if fieldN op = 0 then .instr (.seR (fieldX op) (fieldY op)) else .unrecognized
  | 0x6#4 => .instr (.ldB (fieldX op) (fieldNN op))
  | 0x7#4 => .instr (.addB (fieldX op) (fieldNN op))
  | 0x8#4 => decodeClass8 (fieldX op) (fieldY op) (fieldN op)
  | 0x9#4 => if fieldN op = 0 then .instr (.sneR (fieldX op) (fieldY op)) else .unrecognized
  | 0xA#4 => .instr (.ldI (fieldNNN op))
  | 0xB#4 => .instr (.jpV0 (fieldNNN op))
  | 0xC#4 => .instr (.rnd (fieldX op) (fieldNN op))
  | 0xD#4 => .instr (.drw (fieldX op) (fieldY op) (fieldN op))
  | 0xE#4 => decodeClassE (fieldX op) (fieldNN op)
  | 0xF#4 => decodeClassF (fieldX op) (fieldNN op)
  | _ => .unrecognized

/-- The word of two consecutive bytes, big-endian: the first in bits 15:8 (R58). -/
def wordOfBytes (hi lo : Byte) : Word := hi ++ lo

/-- The two bytes of a word as memory holds it: bits 15:8 at the lower address (R58). -/
def bytesOfWord (w : Word) : List Byte := [w.extractLsb' 8 8, w.extractLsb' 0 8]

/-- Decode the first instruction of a list of bytes, with the bytes after it; `none` if fewer than two bytes are left.
Every instruction has two bytes (R70). -/
def decodeBytes : List Byte → Option (Decoded × List Byte)
  | hi :: lo :: rest => some (decodeWord (wordOfBytes hi lo), rest)
  | _ => none

/-- The instruction the decoder reads from the word w of a table row of nbits bits (R79: every row has 16 bits). A word of
more than 16 bits is no instruction (log entry 30). -/
def decodeTableWord (nbits w : Nat) : Option Instr :=
  if nbits ≤ 16 ∧ w < 2 ^ 16 then
    match decodeBytes (bytesOfWord (BitVec.ofNat 16 w)) with
    | some (.instr i, _) => some i
    | some (.unrecognized, _) => none
    | none => none
  else none

/-- Format A: class and NNN (R78). -/
def formatA (c : BitVec 4) (nnn : Addr) : Word := c ++ nnn

/-- Format XB: class, X and NN (R78); format XS is the same with the selector in NN. -/
def formatXB (c : BitVec 4) (x : RegIdx) (nn : Byte) : Word := c ++ (BitVec.ofFin x : BitVec 4) ++ nn

/-- Format XYN: class, X, Y and N (R78); format XY is the same with the selector, or 0, in N. -/
def formatXYN (c : BitVec 4) (x y : RegIdx) (n : Nibble) : Word :=
  c ++ (BitVec.ofFin x : BitVec 4) ++ (BitVec.ofFin y : BitVec 4) ++ n

/-- The word of an instruction, from the encoding tables R78 and R79 (R89). -/
def encode : Instr → Word
  | .cls => 0x00E0#16
  | .ret => 0x00EE#16
  | .jp nnn => formatA 0x1#4 nnn
  | .call nnn => formatA 0x2#4 nnn
  | .seB x nn => formatXB 0x3#4 x nn
  | .sneB x nn => formatXB 0x4#4 x nn
  | .seR x y => formatXYN 0x5#4 x y 0x0#4
  | .ldB x nn => formatXB 0x6#4 x nn
  | .addB x nn => formatXB 0x7#4 x nn
  | .ldR x y => formatXYN 0x8#4 x y 0x0#4
  | .orR x y => formatXYN 0x8#4 x y 0x1#4
  | .andR x y => formatXYN 0x8#4 x y 0x2#4
  | .xorR x y => formatXYN 0x8#4 x y 0x3#4
  | .addR x y => formatXYN 0x8#4 x y 0x4#4
  | .sub x y => formatXYN 0x8#4 x y 0x5#4
  | .shr x y => formatXYN 0x8#4 x y 0x6#4
  | .subn x y => formatXYN 0x8#4 x y 0x7#4
  | .shl x y => formatXYN 0x8#4 x y 0xE#4
  | .sneR x y => formatXYN 0x9#4 x y 0x0#4
  | .ldI nnn => formatA 0xA#4 nnn
  | .jpV0 nnn => formatA 0xB#4 nnn
  | .rnd x nn => formatXB 0xC#4 x nn
  | .drw x y n => formatXYN 0xD#4 x y n
  | .skp x => formatXB 0xE#4 x 0x9E#8
  | .sknp x => formatXB 0xE#4 x 0xA1#8
  | .ldXDt x => formatXB 0xF#4 x 0x07#8
  | .ldXK x => formatXB 0xF#4 x 0x0A#8
  | .ldDtX x => formatXB 0xF#4 x 0x15#8
  | .ldStX x => formatXB 0xF#4 x 0x18#8
  | .addI x => formatXB 0xF#4 x 0x1E#8
  | .ldF x => formatXB 0xF#4 x 0x29#8
  | .ldBX x => formatXB 0xF#4 x 0x33#8
  | .ldMiX x => formatXB 0xF#4 x 0x55#8
  | .ldXMi x => formatXB 0xF#4 x 0x65#8

/-- A row of R79's opcode map: a word is this row's instruction if it equals `pat` under `mask`. -/
structure OpcodeRow where
  mask : Word
  pat : Word
  deriving DecidableEq, Repr

/-- The word matches the row (R79). -/
def OpcodeRow.admits (r : OpcodeRow) (op : Word) : Bool := op &&& r.mask == r.pat

/-- The 34 rows of R79, in its order. -/
def opcodeTable : List OpcodeRow :=
  [⟨0xFFFF, 0x00E0⟩, ⟨0xFFFF, 0x00EE⟩, ⟨0xF000, 0x1000⟩, ⟨0xF000, 0x2000⟩, ⟨0xF000, 0x3000⟩, ⟨0xF000, 0x4000⟩,
   ⟨0xF00F, 0x5000⟩, ⟨0xF000, 0x6000⟩, ⟨0xF000, 0x7000⟩] ++
  [⟨0xF00F, 0x8000⟩, ⟨0xF00F, 0x8001⟩, ⟨0xF00F, 0x8002⟩, ⟨0xF00F, 0x8003⟩, ⟨0xF00F, 0x8004⟩, ⟨0xF00F, 0x8005⟩,
   ⟨0xF00F, 0x8006⟩, ⟨0xF00F, 0x8007⟩, ⟨0xF00F, 0x800E⟩] ++
  [⟨0xF00F, 0x9000⟩, ⟨0xF000, 0xA000⟩, ⟨0xF000, 0xB000⟩, ⟨0xF000, 0xC000⟩, ⟨0xF000, 0xD000⟩,
   ⟨0xF0FF, 0xE09E⟩, ⟨0xF0FF, 0xE0A1⟩] ++
  [⟨0xF0FF, 0xF007⟩, ⟨0xF0FF, 0xF00A⟩, ⟨0xF0FF, 0xF015⟩, ⟨0xF0FF, 0xF018⟩, ⟨0xF0FF, 0xF01E⟩, ⟨0xF0FF, 0xF029⟩,
   ⟨0xF0FF, 0xF033⟩, ⟨0xF0FF, 0xF055⟩, ⟨0xF0FF, 0xF065⟩]

/-- The number of R79's row for an instruction, counted from 0. -/
def Instr.row : Instr → Nat
  | .cls => 0
  | .ret => 1
  | .jp _ => 2
  | .call _ => 3
  | .seB _ _ => 4
  | .sneB _ _ => 5
  | .seR _ _ => 6
  | .ldB _ _ => 7
  | .addB _ _ => 8
  | .ldR _ _ => 9
  | .orR _ _ => 10
  | .andR _ _ => 11
  | .xorR _ _ => 12
  | .addR _ _ => 13
  | .sub _ _ => 14
  | .shr _ _ => 15
  | .subn _ _ => 16
  | .shl _ _ => 17
  | .sneR _ _ => 18
  | .ldI _ => 19
  | .jpV0 _ => 20
  | .rnd _ _ => 21
  | .drw _ _ _ => 22
  | .skp _ => 23
  | .sknp _ => 24
  | .ldXDt _ => 25
  | .ldXK _ => 26
  | .ldDtX _ => 27
  | .ldStX _ => 28
  | .addI _ => 29
  | .ldF _ => 30
  | .ldBX _ => 31
  | .ldMiX _ => 32
  | .ldXMi _ => 33

/-- The bytes a program line places at the current address (R88, R89): an instruction's word and a `DW` big-endian, a `DB`
as one byte; `none` for an ill-formed line. -/
def Stmt.bytes : Stmt → Option (List Byte)
  | .instr m ops => (assembleInstr m ops).map fun i => bytesOfWord (encode i)
  | .dw n => (immOperand 16 n).map bytesOfWord
  | .db n => (immOperand 8 n).map fun b => [b]

end Sys2Proof
end

