-- ==== Sys2Proof/Config.lean ====
section
/-! DEFINITION. What the implementation fixes (00_scope.md R7) and the one free value (RAND, R145).
The parameters R7 leaves to the model's user are the record `Machine.Params` (Machine/Params.lean). -/

namespace Sys2Proof.Config

/-- `MEM_SIZE`: exactly 4096 bytes (R7, R50; log entry 26). -/
abbrev memSize : Nat := 4096

/-- `PROG_BASE`: programs are loaded, and start, at 0x200 (R7, R53). -/
abbrev progBase : Nat := 0x200

/-- `PROG_CAPACITY` = `MEM_SIZE - PROG_BASE` (R7). -/
abbrev progCapacity : Nat := memSize - progBase

/-- `STACK_DEPTH`: 16 entries (R7, R29; log entry 26). -/
abbrev stackDepth : Nat := 16

/-- The size of the font table: 16 glyphs of 5 bytes (R55). -/
abbrev fontSize : Nat := 80

/-- RAND, the random byte of CXNN (R145): the n-th draw. A FREE VALUE: it has no body, so a claim holds for every
draw. DESIGN CHOICE, safe (log entry 4). -/
opaque randDraw : Nat → Byte

end Sys2Proof.Config

namespace Sys2Proof

/-- `ALU_READ_ORDER` (R7, R15): do 8XY5, 8XY6, 8XY7 and 8XYE read their operands again after the flag write, or once
before it? -/
inductive AluReadOrder where
  | sequential
  | latched
  deriving DecidableEq, Repr

/-- `KEY_INDEX_POLICY` (R7, R200): what EX9E and EXA1 do with a key number above 15. -/
inductive KeyIndexPolicy where
  | fault
  | mask
  deriving DecidableEq, Repr

end Sys2Proof
end

