-- ==== Sys2Proof/Machine/Memory.lean ====
section
/-! DEFINITION. Memory as plain data (R35, R50): a list of address and byte pairs in one canonical form over a
background, the byte an unlisted address reads as. -/

namespace Sys2Proof.Machine

/-- The bytes that differ from the background, by strictly rising address. -/
abbrev Memory := List Host.Cell

/-- The byte at an address: the listed one, else the background's. -/
def Memory.read (bg : Nat → Byte) : Memory → Nat → Byte
  | [], a => bg a
  | (c, v) :: rest, a => if a = c then v else Memory.read bg rest a

/-- The list with `b` at address `a`, which stands before every address of the list: an entry equal to the background is
not kept. -/
def Memory.cons (bg : Nat → Byte) (a : Nat) (b : Byte) (m : Memory) : Memory :=
  if b = bg a then m else (a, b) :: m

/-- Set the byte at an address, keeping the canonical form. -/
def Memory.write (bg : Nat → Byte) : Memory → Nat → Byte → Memory
  | [], a, b => Memory.cons bg a b []
  | (c, v) :: rest, a, b =>
    if a < c then Memory.cons bg a b ((c, v) :: rest)
    else if a = c then Memory.cons bg a b rest
    else (c, v) :: Memory.write bg rest a b

/-- The canonical form: addresses strictly rising and inside the 4096-byte space (R50, R52), no entry equal to what an
unlisted address reads as. -/
abbrev Memory.wf (bg : Nat → Byte) (m : Memory) : Prop :=
  m.Pairwise (fun p q => p.1 < q.1) ∧ ∀ p ∈ m, p.1 < Config.memSize ∧ p.2 ≠ bg p.1

end Sys2Proof.Machine
end

