-- ==== Sys2Proof/Machine/Params.lean ====
section
/-! DEFINITION. The parameters of R7 that a model may take as arguments, as one record of plain data, with the spec's
defaults (log entries 6 to 11). -/

namespace Sys2Proof.Machine

/-- The parameters (R7). They are fixed for the machine: nothing writes them. -/
structure Params where
  /-- `ALU_READ_ORDER` (R15) -/
  aluReadOrder : AluReadOrder
  /-- `KEY_INDEX_POLICY` (R200) -/
  keyIndexPolicy : KeyIndexPolicy
  /-- `FONT_BASE` (R53, R162) -/
  fontBase : Word
  /-- `FONT_DATA` (R55) -/
  fontData : Vector Byte 80
  /-- `LOAD_FAIL_RESETS` (R253) -/
  loadFailResets : Bool
  deriving DecidableEq, Repr

/-- The default of `FONT_DATA`: the 80 bytes of R55's table, from general knowledge, not in source.
PRESUMED, unsafe (log entry 9). -/
def defaultFont : Vector Byte 80 :=
  (#v[0xF0, 0x90, 0x90, 0x90, 0xF0,  0x20, 0x60, 0x20, 0x20, 0x70,  0xF0, 0x10, 0xF0, 0x80, 0xF0,
      0xF0, 0x10, 0xF0, 0x10, 0xF0,  0x90, 0x90, 0xF0, 0x10, 0x10,  0xF0, 0x80, 0xF0, 0x10, 0xF0,
      0xF0, 0x80, 0xF0, 0x90, 0xF0,  0xF0, 0x10, 0x20, 0x40, 0x40] : Vector Byte 40) ++
  (#v[0xF0, 0x90, 0xF0, 0x90, 0xF0,  0xF0, 0x90, 0xF0, 0x10, 0xF0,  0xF0, 0x90, 0xF0, 0x90, 0x90,
      0xE0, 0x90, 0xE0, 0x90, 0xE0,  0xF0, 0x80, 0x80, 0x80, 0xF0,  0xE0, 0x90, 0x90, 0x90, 0xE0,
      0xF0, 0x80, 0xF0, 0x80, 0xF0,  0xF0, 0x80, 0xF0, 0x80, 0x80] : Vector Byte 40)

/-- The defaults of R7. -/
def Params.default : Params where
  aluReadOrder := .sequential
  keyIndexPolicy := .fault
  fontBase := 0x050
  fontData := defaultFont
  loadFailResets := false

/-- What an address of memory that nothing has written reads as: the reset contents of R56, the font table at
`FONT_BASE` and zero elsewhere (log entry 14). -/
def Params.resetByte (p : Params) (a : Nat) : Byte :=
  if h : p.fontBase.toNat ≤ a ∧ a < p.fontBase.toNat + 80 then
    p.fontData[a - p.fontBase.toNat]'(by omega)
  else 0

end Sys2Proof.Machine
end

