-- ==== Sys2Proof/Machine/State.lean ====
section
/-! DEFINITION. The state of the core (10_state.md), as plain data, and its value after reset (R250). INVENTORY.md lists
each field with its rule. -/

namespace Sys2Proof.Machine

/-- RUN (R36). -/
inductive RunState where
  /-- no program is started -/
  | idle
  /-- steps execute -/
  | running
  /-- a fatal condition has stopped execution -/
  | halted
  deriving DecidableEq, Repr

/-- The four fatal conditions (R220). -/
inductive Condition where
  | unrecognizedInstruction
  | stackOverflow
  | stackUnderflow
  | outOfBoundsAccess
  deriving DecidableEq, Repr

/-- The numeric code of a condition (R220). -/
def Condition.code : Condition → Nat
  | .unrecognizedInstruction => 1
  | .stackOverflow => 2
  | .stackUnderflow => 3
  | .outOfBoundsAccess => 4

/-- The fault record FAULT (R37, R222). -/
structure FaultRecord where
  /-- which condition -/
  kind : Condition
  /-- the PC of the step that raised it -/
  pc : Word
  /-- the fetched word, or none for a fetch fault -/
  opcode : Option Word
  /-- the offending address, or key index, as an exact number; for `OutOfBoundsAccess` only -/
  addr : Option Nat
  deriving DecidableEq, Repr

/-- The PC outcome an instruction ends in (R13). -/
inductive PcOutcome where
  | next
  | skip
  | goto (t : Word)
  | hold
  deriving DecidableEq, Repr

/-- FB, 32 rows of 64 one-bit cells (R32): row y is `fb[y]`, cell (x, y) is `fb[y][x]`. -/
abbrev Framebuffer := Vector (Vector Bool 64) 32

/-- The framebuffer with every cell 0. -/
def Framebuffer.clear : Framebuffer := Vector.replicate 32 (Vector.replicate 64 false)

/-- The whole state of the core (R41), and three fields of the model's own. -/
structure State where
  /-- V0 to VF; VF is the flag register (R20, R21) -/
  v : Vector Byte 16
  /-- PC; during an instruction, its own address (R25) -/
  pc : Word
  /-- the index register I (R28) -/
  i : Word
  /-- the return-address stack (R29) -/
  stack : Vector Word 16
  /-- SP, the number of stack entries in use, 0 to 16 (R29) -/
  sp : Fin 17
  /-- the delay timer (R31) -/
  dt : Byte
  /-- the sound timer (R31) -/
  st : Byte
  /-- MEM (R35) -/
  mem : Memory
  /-- FB (R32) -/
  fb : Framebuffer
  /-- DIRTY (R33) -/
  dirty : Bool
  /-- KEY, true for a key that is down (R34) -/
  key : Vector Bool 16
  /-- RUN (R36) -/
  run : RunState
  /-- FAULT (R37) -/
  fault : Option FaultRecord
  /-- the model's own: the number of random bytes CXNN has taken (R145; log entry 4) -/
  draws : Nat
  /-- the model's own: the number of BEEP pulses emitted (R98; log entry 5) -/
  beeps : Nat
  /-- the parameters of R7 (log entry 6) -/
  cfg : Params
  deriving DecidableEq, Repr

/-- Why a step could stop the MODEL. It has no constructor: the core's four fatal conditions are next states, with RUN
Halted and FAULT written, as R221 describes them (log entry 2), and nothing else stops a step. Nobody raises one; safe. -/
inductive Fault where
  deriving DecidableEq, Repr

/-- Why the model would decline an instruction. -/
inductive Refusal where
  /-- An instruction that has no meaning yet, by its mnemonic in the opcode table. Raised by an arm of `exec` only, and
  no arm raises it now; safe. -/
  | notModelled (mnemonic : String)
  deriving DecidableEq, Repr

/-- What a step of this machine answers. -/
abbrev Outcome := Host.Outcome State Fault Refusal

/-- The machine right after reset: R250's table, that is, after a successful load of the empty image (log entry 12). The
model's own fields start at 0, DESIGN CHOICE (log entries 4, 5), and the parameters at R7's defaults. -/
def State.reset : State where
  v := Vector.replicate 16 0
  pc := 0x200
  i := 0
  stack := Vector.replicate 16 0
  sp := 0
  dt := 0
  st := 0
  mem := []
  fb := Framebuffer.clear
  dirty := false
  key := Vector.replicate 16 false
  run := .running
  fault := none
  draws := 0
  beeps := 0
  cfg := Params.default

/-- The machine at power-on, before any load (R251): as after reset, but Idle. -/
def State.powerOn : State := { State.reset with run := .idle }

end Sys2Proof.Machine
end

