-- ==== Sys2Proof/Machine/Ops.lean ====
section
/-! DEFINITION. The named operations every meaning is built from: registers, memory and its bounds, the call stack, the
framebuffer, the keys, completing an instruction (R95) and raising a fatal condition (R221). -/

namespace Sys2Proof.Machine

/-! ## Registers (R10, R20) -/

/-- Read `V[x]`. -/
def State.reg (s : State) (x : RegIdx) : Byte := s.v[x]

/-- Write `V[x]`. -/
def State.setReg (s : State) (x : RegIdx) (b : Byte) : State := { s with v := s.v.set x.val b x.isLt }

/-- Write the bytes to `V[k]`, `V[k+1]`, ... in this order. -/
def State.setRegs (s : State) (k : Nat) : List Byte → State
  | [] => s
  | b :: bs => (s.setReg (Fin.ofNat 16 k) b).setRegs (k + 1) bs

/-- The values of `V[0]` to `V[n-1]`. -/
def State.firstRegs (s : State) (n : Nat) : List Byte := s.v.toList.take n

/-! ## Memory (R11, R57, R59) -/

/-- `MEM[a]`. Reading changes nothing (R61). The bound of R11 is `firstOutOfBounds`, which every access checks before. -/
def State.peek (s : State) (a : Nat) : Byte := s.mem.read s.cfg.resetByte a

/-- `MEM[a] <- b`. -/
def State.poke (s : State) (a : Nat) (b : Byte) : State :=
  { s with mem := s.mem.write s.cfg.resetByte a b }

/-- The n bytes from address a on, in ascending order (R57). -/
def State.peeks (s : State) (a n : Nat) : List Byte := (List.range n).map fun k => s.peek (a + k)

/-- Write the bytes to addresses a, a + 1, ... in ascending order (R57). -/
def State.pokes (s : State) (a : Nat) : List Byte → State
  | [] => s
  | b :: bs => (s.poke a b).pokes (a + 1) bs

/-- The lowest of the addresses base, base + 1, ..., base + n - 1 that does not exist, if any. Addresses are exact numbers,
neither wrapped nor clamped (R59, R225; log entries 16, 17). -/
def firstOutOfBounds (base n : Nat) : Option Nat :=
  ((List.range n).map (base + ·)).find? fun a => decide (Config.memSize ≤ a)

/-! ## Ending an instruction -/

/-- Apply a PC outcome; PC is still the address of the executed instruction (R13, R95). -/
def State.applyOutcome (s : State) : PcOutcome → State
  | .next => { s with pc := s.pc + 2 }
  | .skip => { s with pc := s.pc + 4 }
  | .goto t => { s with pc := t }
  | .hold => s

/-- The instruction completes with this PC outcome. -/
def complete (out : PcOutcome) (s : State) : Outcome := .next (s.applyOutcome out)

/-- Taking a fatal condition: RUN becomes Halted and FAULT is recorded, with the PC of the raising step; nothing else is
written (R221, R222; log entries 2, 16). -/
def State.halt (s : State) (c : Condition) (opcode : Option Word) (addr : Option Nat) : State :=
  { s with run := .halted, fault := some { kind := c, pc := s.pc, opcode := opcode, addr := addr } }

/-- The instruction `ins`, executing, raises a fatal condition (R12). The opcode recorded is its word (log entry 15). -/
def raise (ins : Instr) (c : Condition) (addr : Option Nat) (s : State) : Outcome :=
  .next (s.halt c (some (encode ins)) addr)

/-- The instruction `ins` accesses the n bytes from address base on: every address is checked first, and only if all exist
does it go on with `body` (43_index_memory.md, 44_display.md R181, R223; log entry 16). -/
def withAddresses (ins : Instr) (base n : Nat) (s : State) (body : Outcome) : Outcome :=
  match firstOutOfBounds base n with
  | some a => raise ins .outOfBoundsAccess (some a) s
  | none => body

/-! ## The call stack (R29, R30) -/

/-- Push a return address: `STACK[SP]` is written and SP goes up; `none` if all 16 entries are in use. -/
def State.push (s : State) (ra : Word) : Option State :=
  if h : s.sp.val < Config.stackDepth then
    some { s with stack := s.stack.set s.sp.val ra h, sp := ⟨s.sp.val + 1, Nat.succ_lt_succ h⟩ }
  else none

/-- Pop: SP goes down, and `STACK[SP]`, which keeps its value, is the popped address; `none` if the stack is empty. -/
def State.pop (s : State) : Option (Word × State) :=
  if h : 0 < s.sp.val then
    some (s.stack[s.sp.val - 1]'(by omega), { s with sp := ⟨s.sp.val - 1, by omega⟩ })
  else none

/-! ## The framebuffer (R32, R181) -/

/-- Cell (px, py). -/
def Framebuffer.cell (fb : Framebuffer) (px : Fin 64) (py : Fin 32) : Bool := fb[py][px]

/-- XOR a 1 into cell (px, py). -/
def Framebuffer.toggle (fb : Framebuffer) (px : Fin 64) (py : Fin 32) : Framebuffer :=
  fb.set py.val (fb[py].set px.val (!fb[py][px]) px.isLt) py.isLt

/-- Toggle a cell of a drawing in progress, the framebuffer and R181's `hit`: a cell that was already set is a hit. -/
def togglePixel (px : Fin 64) (py : Fin 32) (d : Framebuffer × Bool) : Framebuffer × Bool :=
  (d.1.toggle px py, d.2 || d.1.cell px py)

/-- Draw one row byte at column cx of row cy: bit 7 is the leftmost pixel, and coordinates wrap per pixel (R181; log entry
21). -/
def drawRow (b : Byte) (cx cy : Nat) (d : Framebuffer × Bool) : Framebuffer × Bool :=
  (List.range 8).foldl
    (fun d c => if b.getLsbD (7 - c) then togglePixel (Fin.ofNat 64 (cx + c)) (Fin.ofNat 32 cy) d else d) d

/-- Draw the row bytes of a sprite, one below the other (R181). -/
def drawRows : List Byte → Nat → Nat → Framebuffer × Bool → Framebuffer × Bool
  | [], _, _, d => d
  | b :: bs, cx, cy, d => drawRows bs cx (cy + 1) (drawRow b cx cy d)

/-- The framebuffer after XOR-drawing a sprite at (cx, cy), and whether it hit a set cell (R181). -/
def drawSprite (fb : Framebuffer) (cx cy : Byte) (rows : List Byte) : Framebuffer × Bool :=
  drawRows rows cx.toNat cy.toNat (fb, false)

/-! ## The keys (R34, R202) -/

/-- The lowest key that is down, if any. -/
def lowestKeyDown (key : Vector Bool 16) : Option RegIdx :=
  (List.finRange 16).find? fun k => key[k]

end Sys2Proof.Machine
end

