-- ==== Sys2Proof/Machine/Cycle.lean ====
section
/-! DEFINITION. The parts of the instruction cycle around execution (40_cycle.md): the fetch, the two fatal conditions that
come before an instruction, the timer tick, and placing a word where the next fetch reads it. -/

namespace Sys2Proof.Machine

/-- The fetch (R91): two bytes at PC, big-endian; or the first byte address that does not exist. Any PC, odd or even
(R60; log entry 18). -/
def State.fetch (s : State) : Except Nat Word :=
  match firstOutOfBounds s.pc.toNat 2 with
  | some a => .error a
  | none => .ok (wordOfBytes (s.peek s.pc.toNat) (s.peek (s.pc.toNat + 1)))

/-- A fetch out of bounds: no opcode is recorded (R91, R221). -/
def State.fetchFault (s : State) (a : Nat) : State := s.halt .outOfBoundsAccess none (some a)

/-- A word that matches no row (R83, R93). -/
def State.illegalWord (s : State) (op : Word) : State := s.halt .unrecognizedInstruction (some op) none

/-- A timer counts down by one and stays at 0 (R97). -/
def tickDown (t : Byte) : Byte := if t = 0 then 0 else t - 1

/-- The timer tick (R97), which emits one BEEP if ST is 1 before it (R98; log entries 5, 23). -/
def State.timerTick (s : State) : State :=
  { s with dt := tickDown s.dt, st := tickDown s.st, beeps := s.beeps + if s.st = 1 then 1 else 0 }

/-- What follows an instruction's execution: the tick, unless it raised (R90, R97, R221). -/
def State.endStep (s : State) : State := if s.run = .halted then s else s.timerTick

/-- The state with the word op in the two bytes at PC, big-endian (R58), and RUN at Running, so that the next step fetches
it; with a PC whose two bytes do not both exist nothing is stored (log entry 1). -/
def State.placeWord (s : State) (op : Word) : State :=
  if s.pc.toNat + 1 < Config.memSize then
    ({ s with run := .running } : State).pokes s.pc.toNat (bytesOfWord op)
  else { s with run := .running }

end Sys2Proof.Machine
end

