-- ==== Sys2Proof/Machine/Flags.lean ====
section
/-! DEFINITION. Every flag computation of R27: what each instruction writes to VF. Operands are unsigned; sums are formed
exactly and compared (R9, R130). -/

namespace Sys2Proof.Machine

/-- A flag value is exactly 0x00 or 0x01 (R132). -/
def flagByte (f : Bool) : Byte := if f then 1 else 0

/-- Carry out of an 8-bit sum (8XY4, R139). -/
def carryOut (a b : Byte) : Bool := decide (a.toNat + b.toNat > 0xFF)

/-- Not-borrow of a - b: false if b > a (8XY5, R140; 8XY7 with the operands exchanged, R142). -/
def notBorrow (a b : Byte) : Bool := !decide (b.toNat > a.toNat)

/-- The bit shifted out to the right (8XY6, R141). -/
def lowBit (a : Byte) : Bool := a.getLsbD 0

/-- The bit shifted out to the left (8XYE, R144). -/
def highBit (a : Byte) : Bool := a.getLsbD 7

/-- The index-overflow flag: the resulting I exceeds 0xFFF (FX1E, R161). -/
def indexOverflow (i : Word) : Bool := decide (i.toNat > 0xFFF)

/-- Write VF with a flag value (R132). -/
def State.setFlag (s : State) (f : Bool) : State := s.setReg vF (flagByte f)

end Sys2Proof.Machine
end

