-- ==== Sys2Proof/Machine/Operands.lean ====
section
/-! DEFINITION. The operand forms: two registers into one (format XY), the flag-first ALU form under both settings of
ALU_READ_ORDER (R15, R143), skips on a condition, the base address of a memory access, and a key number. -/

namespace Sys2Proof.Machine

/-- `V[x] <- f V[x] V[y]`, no flag (8XY0 to 8XY3). -/
def aluNoFlag (f : Byte → Byte → Byte) (x y : RegIdx) (s : State) : Outcome :=
  complete .next (s.setReg x (f (s.reg x) (s.reg y)))

/-- The operands of the result statement of a flag-first instruction: read again after the flag write under `sequential`,
or the values read before it under `latched` (R15, section 4 of 42_alu.md; log entry 7). `s` is the state before the flag
write and `s1` the state after it. -/
def resultOperands (order : AluReadOrder) (x y : RegIdx) (s s1 : State) : Byte × Byte :=
  match order with
  | .sequential => (s1.reg x, s1.reg y)
  | .latched => (s.reg x, s.reg y)

/-- The form of 8XY5, 8XY6, 8XY7 and 8XYE: `V[F] <- flag a b`, then `V[x] <- result a b` (R140 to R144). -/
def aluFlagFirst (flag : Byte → Byte → Bool) (result : Byte → Byte → Byte) (x y : RegIdx) (s : State) : Outcome :=
  let s1 := s.setFlag (flag (s.reg x) (s.reg y))
  let ab := resultOperands s.cfg.aluReadOrder x y s s1
  complete .next (s1.setReg x (result ab.1 ab.2))

/-- The form of 8XY4: the sum is formed, the result is written, and the flag is written last (R139). -/
def aluFlagLast (flag : Byte → Byte → Bool) (result : Byte → Byte → Byte) (x y : RegIdx) (s : State) : Outcome :=
  complete .next ((s.setReg x (result (s.reg x) (s.reg y))).setFlag (flag (s.reg x) (s.reg y)))

/-- Skip one word if the condition holds (R113 to R116, R200, R201). -/
def skipIf (c : Bool) (s : State) : Outcome := complete (if c then .skip else .next) s

/-- The base address of a data access: I, as an exact number (R52, R166). -/
def State.base (s : State) : Nat := s.i.toNat

/-- FX55 and FX65 access x + 1 bytes (R164, R165). -/
def blockSize (x : RegIdx) : Nat := x.val + 1

/-- FX55 and FX65 advance I by x + 1, modulo 2^16 (R164, R165; log entry 17). -/
def State.advanceI (s : State) (x : RegIdx) : State := { s with i := s.i + BitVec.ofNat 16 (blockSize x) }

/-- The three decimal digits of a byte: hundreds, tens, units (R163). -/
def bcdDigits (b : Byte) : List Byte :=
  [BitVec.ofNat 8 (b.toNat / 100), BitVec.ofNat 8 (b.toNat / 10 % 10), BitVec.ofNat 8 (b.toNat % 10)]

/-- The key a register value names: itself up to 15; above, none under the policy `fault`, its value modulo 16 under `mask`
(R200; log entry 8). -/
def keyNumber (policy : KeyIndexPolicy) (k : Byte) : Option RegIdx :=
  if h : k.toNat < 16 then some ⟨k.toNat, h⟩
  else match policy with
    | .fault => none
    | .mask => some (Fin.ofNat 16 k.toNat)

/-- The form of EX9E and EXA1: skip if the key numbered `V[x]` is in the state `down`; a key number out of range raises
OutOfBoundsAccess with that number (R200, R201). -/
def skipIfKey (ins : Instr) (x : RegIdx) (down : Bool) (s : State) : Outcome :=
  match keyNumber s.cfg.keyIndexPolicy (s.reg x) with
  | none => raise ins .outOfBoundsAccess (some (s.reg x).toNat) s
  | some k => skipIf (s.key[k] == down) s

end Sys2Proof.Machine
end

