-- ==== Sys2Proof/Machine/Alu.lean ====
section
/-! DEFINITION. Register loads and the ALU (42_alu.md, R130 to R146). Every result is reduced modulo 2^8 (R131). -/

namespace Sys2Proof.Machine

/-- `LD Vx, nn` (R133). -/
def execLdB (x : RegIdx) (nn : Byte) (s : State) : Outcome := complete .next (s.setReg x nn)

/-- `ADD Vx, nn` (R134): no flag. -/
def execAddB (x : RegIdx) (nn : Byte) (s : State) : Outcome := complete .next (s.setReg x (s.reg x + nn))

/-- `LD Vx, Vy` (R135). -/
def execLdR (x y : RegIdx) (s : State) : Outcome := aluNoFlag (fun _ b => b) x y s

/-- `OR Vx, Vy` (R136). -/
def execOrR (x y : RegIdx) (s : State) : Outcome := aluNoFlag (fun a b => a ||| b) x y s

/-- `AND Vx, Vy` (R137). -/
def execAndR (x y : RegIdx) (s : State) : Outcome := aluNoFlag (fun a b => a &&& b) x y s

/-- `XOR Vx, Vy` (R138). -/
def execXorR (x y : RegIdx) (s : State) : Outcome := aluNoFlag (fun a b => a ^^^ b) x y s

/-- `ADD Vx, Vy` (R139). -/
def execAddR (x y : RegIdx) (s : State) : Outcome := aluFlagLast carryOut (fun a b => a + b) x y s

/-- `SUB Vx, Vy` (R140). -/
def execSub (x y : RegIdx) (s : State) : Outcome := aluFlagFirst notBorrow (fun a b => a - b) x y s

/-- `SHR Vx, Vy` (R141): V[y] is not read. -/
def execShr (x y : RegIdx) (s : State) : Outcome := aluFlagFirst (fun a _ => lowBit a) (fun a _ => a >>> 1) x y s

/-- `SUBN Vx, Vy` (R142). -/
def execSubn (x y : RegIdx) (s : State) : Outcome :=
  aluFlagFirst (fun a b => notBorrow b a) (fun a b => b - a) x y s

/-- `SHL Vx, Vy` (R144): V[y] is not read. -/
def execShl (x y : RegIdx) (s : State) : Outcome := aluFlagFirst (fun a _ => highBit a) (fun a _ => a <<< 1) x y s

/-- CXNN with this random byte: `V[x] <- RAND AND nn`, and the draw is used up (R145). -/
def rndWith (rand : Byte) (x : RegIdx) (nn : Byte) (s : State) : Outcome :=
  complete .next { s.setReg x (rand &&& nn) with draws := s.draws + 1 }

/-- `RND Vx, nn` (R145): each execution takes a fresh draw, a free value (R40; log entry 4). -/
def execRnd (x : RegIdx) (nn : Byte) (s : State) : Outcome := rndWith (Config.randDraw s.draws) x nn s

end Sys2Proof.Machine
end

