-- ==== Sys2Proof/Machine/Control.lean ====
section
/-! DEFINITION. Control transfer (41_control_flow.md, R110 to R118). -/

namespace Sys2Proof.Machine

/-- `RET` (R110): pop the address of the 2NNN that pushed it, and go to the instruction after it. -/
def execRet (s : State) : Outcome :=
  match s.pop with
  | none => raise .ret .stackUnderflow none s
  | some (t, s1) => complete (.goto (t + 2)) s1

/-- `JP nnn` (R111). -/
def execJp (nnn : Addr) (s : State) : Outcome := complete (.goto (nnn.setWidth 16)) s

/-- `CALL nnn` (R112): push the address of this word itself. -/
def execCall (nnn : Addr) (s : State) : Outcome :=
  match s.push s.pc with
  | none => raise (.call nnn) .stackOverflow none s
  | some s1 => complete (.goto (nnn.setWidth 16)) s1

/-- `SE Vx, nn` (R113). -/
def execSeB (x : RegIdx) (nn : Byte) (s : State) : Outcome := skipIf (s.reg x == nn) s

/-- `SNE Vx, nn` (R114). -/
def execSneB (x : RegIdx) (nn : Byte) (s : State) : Outcome := skipIf (s.reg x != nn) s

/-- `SE Vx, Vy` (R115). -/
def execSeR (x y : RegIdx) (s : State) : Outcome := skipIf (s.reg x == s.reg y) s

/-- `SNE Vx, Vy` (R116). -/
def execSneR (x y : RegIdx) (s : State) : Outcome := skipIf (s.reg x != s.reg y) s

/-- `JP V0, nnn` (R117): the sum is at most 0x10FE, so it never wraps. -/
def execJpV0 (nnn : Addr) (s : State) : Outcome :=
  complete (.goto ((s.reg 0).setWidth 16 + nnn.setWidth 16)) s

end Sys2Proof.Machine
end

