-- ==== Sys2Proof/Machine/Display.lean ====
section
/-! DEFINITION. The display (44_display.md, R180 to R182). -/

namespace Sys2Proof.Machine

/-- `CLS` (R180). -/
def execCls (s : State) : Outcome := complete .next { s with fb := Framebuffer.clear, dirty := true }

/-- `DRW Vx, Vy, n` (R181): the coordinates are read before VF is written; DIRTY is set whenever it completes (log entry
22). -/
def execDrw (x y : RegIdx) (n : Nibble) (s : State) : Outcome :=
  withAddresses (.drw x y n) s.base n.toNat s
    (let d := drawSprite s.fb (s.reg x) (s.reg y) (s.peeks s.base n.toNat)
     complete .next (({ s with fb := d.1, dirty := true } : State).setFlag d.2))

end Sys2Proof.Machine
end

