-- ==== Sys2Proof/Machine/IndexMemory.lean ====
section
/-! DEFINITION. The index register and memory transfers (43_index_memory.md, R160 to R166). -/

namespace Sys2Proof.Machine

/-- `LD I, nnn` (R160). -/
def execLdI (nnn : Addr) (s : State) : Outcome := complete .next { s with i := nnn.setWidth 16 }

/-- `ADD I, Vx` (R161): the sum first, modulo 2^16, then the flag from the I just written. -/
def execAddI (x : RegIdx) (s : State) : Outcome :=
  let i1 := s.i + (s.reg x).setWidth 16
  complete .next (({ s with i := i1 } : State).setFlag (indexOverflow i1))

/-- `LD F, Vx` (R162): V[x] is not masked (log entry 10). -/
def execLdF (x : RegIdx) (s : State) : Outcome :=
  complete .next { s with i := s.cfg.fontBase + 5 * (s.reg x).setWidth 16 }

/-- `LD B, Vx` (R163). -/
def execLdBX (x : RegIdx) (s : State) : Outcome :=
  withAddresses (.ldBX x) s.base 3 s (complete .next (s.pokes s.base (bcdDigits (s.reg x))))

/-- `LD [I], Vx` (R164). -/
def execLdMiX (x : RegIdx) (s : State) : Outcome :=
  withAddresses (.ldMiX x) s.base (blockSize x) s
    (complete .next ((s.pokes s.base (s.firstRegs (blockSize x))).advanceI x))

/-- `LD Vx, [I]` (R165). -/
def execLdXMi (x : RegIdx) (s : State) : Outcome :=
  withAddresses (.ldXMi x) s.base (blockSize x) s
    (complete .next ((s.setRegs 0 (s.peeks s.base (blockSize x))).advanceI x))

end Sys2Proof.Machine
end

