-- ==== Sys2Proof/Machine/KeysTimers.lean ====
section
/-! DEFINITION. Keys and timers (45_keys_timers.md, R200 to R205). KEY is the key state at the start of the step. -/

namespace Sys2Proof.Machine

/-- `SKP Vx` (R200). -/
def execSkp (x : RegIdx) (s : State) : Outcome := skipIfKey (.skp x) x true s

/-- `SKNP Vx` (R201). -/
def execSknp (x : RegIdx) (s : State) : Outcome := skipIfKey (.sknp x) x false s

/-- `LD Vx, K` (R202): hold while no key is down, else load the lowest key that is down. -/
def execLdXK (x : RegIdx) (s : State) : Outcome :=
  match lowestKeyDown s.key with
  | none => complete .hold s
  | some k => complete .next (s.setReg x (BitVec.ofNat 8 k.val))

/-- `LD Vx, DT` (R203): DT before the step's own tick. -/
def execLdXDt (x : RegIdx) (s : State) : Outcome := complete .next (s.setReg x s.dt)

/-- `LD DT, Vx` (R204). -/
def execLdDtX (x : RegIdx) (s : State) : Outcome := complete .next { s with dt := s.reg x }

/-- `LD ST, Vx` (R205). -/
def execLdStX (x : RegIdx) (s : State) : Outcome := complete .next { s with st := s.reg x }

end Sys2Proof.Machine
end

