-- ==== Sys2Proof/Machine/Step.lean ====
section
/-! DEFINITION. One step of the engine (R90). -/

namespace Sys2Proof.Machine

/-- One step (R90, R99): in Idle or Halted it changes nothing; in Running it fetches, decodes, executes at most one
instruction and ticks the timers, and a fatal condition ends it where it is raised (R221, R225). -/
def step (s : State) : Host.Outcome State Fault Refusal :=
  match s.run with
  | .idle => .next s
  | .halted => .next s
  | .running =>
    match s.fetch with
    | .error a => .next (s.fetchFault a)
    | .ok op =>
      match decodeWord op with
      | .unrecognized => .next (s.illegalWord op)
      | .instr ins =>
        match exec ins s with
        | .next t => .next t.endStep
        | .fault r => .fault r
        | .refused r => .refused r

/-- The state with the word w of a table row of nbits bits stored where the next step fetches (log entry 1). Every row has
16 bits (R70). -/
def State.withFetchWord (s : State) (_nbits w : Nat) : State := s.placeWord (BitVec.ofNat 16 w)

end Sys2Proof.Machine
end

