-- ==== Sys2Proof/Machine/HostPort.lean ====
section
/-! DEFINITION. The host's transactions (R240, R241), each atomic and between steps (log entry 28): load (R252, R253),
key_set, fb_read, dirty_clear, status, mem_peek, and step with its report. -/

namespace Sys2Proof.Machine

/-- What `load` answers (R240, R242). -/
inductive LoadResult where
  | ok
  | capacityExceeded
  deriving DecidableEq, Repr

/-- Every piece of the core's state at its reset value, with this image at 0x200 (R252, R254, R56). The model's own counters
and the parameters are not the core's state and go on (log entries 4, 5, 6). -/
def State.restart (s : State) (bytes : List Byte) : State :=
  ({ State.reset with draws := s.draws, beeps := s.beeps, cfg := s.cfg } : State).pokes Config.progBase bytes

/-- The state a failed load leaves (R253): RUN Idle, and everything else as it was, or reset with no image, by
`LOAD_FAIL_RESETS` (log entry 11). -/
def State.failedLoad (s : State) : State :=
  if s.cfg.loadFailResets then { s.restart [] with run := .idle } else { s with run := .idle }

/-- `load(bytes)` (R252), in any RUN state: capacity is checked before any write. -/
def State.load (s : State) (bytes : List Byte) : LoadResult × State :=
  if bytes.length > Config.progCapacity then (.capacityExceeded, s.failedLoad) else (.ok, s.restart bytes)

/-- `key_set(k, b)` (R240): `KEY[k] <- b`, and nothing else. -/
def State.keySet (s : State) (k : RegIdx) (b : Bool) : State := { s with key := s.key.set k.val b k.isLt }

/-- `dirty_clear()` (R240): `DIRTY <- 0`, and nothing else. -/
def State.dirtyClear (s : State) : State := { s with dirty := false }

/-- `fb_read()` (R240, R32): the 2048 cells, row-major, with DIRTY. It has no side effect (R182). -/
def State.fbRead (s : State) : List Bool × Bool := (s.fb.toList.flatMap Vector.toList, s.dirty)

/-- `status()` (R240): RUN and FAULT. -/
def State.status (s : State) : RunState × Option FaultRecord := (s.run, s.fault)

/-- `mem_peek(a)` (R66, R240): `MEM[a]`, for an address that exists. -/
def State.memPeek (s : State) (a : Nat) : Option Byte := if a < Config.memSize then some (s.peek a) else none

/-- What `step()` reports to the host (R240): the beep pulse, and whether a fatal condition was raised. -/
structure StepReport where
  beep : Bool
  fatal : Bool
  deriving DecidableEq, Repr

/-- The report of a step from s to t. -/
def stepReport (s t : State) : StepReport where
  beep := s.beeps != t.beeps
  fatal := s.run == .running && t.run == .halted

/-- The moves of the host that change the core's state (R240, R241): there is no other. -/
inductive Transaction where
  | step
  | load (bytes : List Byte)
  | keySet (k : RegIdx) (b : Bool)
  | dirtyClear
  deriving DecidableEq, Repr

/-- The state after a transaction. -/
def State.after (s : State) : Transaction → Outcome
  | .step => Sys2Proof.Machine.step s
  | .load bytes => .next (s.load bytes).2
  | .keySet k b => .next (s.keySet k b)
  | .dirtyClear => .next s.dirtyClear

end Sys2Proof.Machine
end

