-- ==== Sys2Proof/Safety.lean ====
section
/-! DEFINITION. What counts as a safe run, and the words claims are made in: reachable states (R240, R241), parked states
(R101), what makes an instruction raise (R220), and the invariants of the core. -/

namespace Sys2Proof.Machine

/-- A state the core can be in: from power-on (R251), with any setting of the parameters, by the host's transactions in any
order (R241). -/
inductive Reachable : State → Prop where
  | powerOn (cfg : Params) : Reachable { State.powerOn with cfg := cfg }
  | after {s t : State} (m : Transaction) : Reachable s → s.after m = .next t → Reachable t

/-- Safe: no fatal condition has stopped the core (R36, R220). -/
def State.Safe (s : State) : Prop := s.run ≠ .halted

/-- A run of k steps that raises no fatal condition. -/
def State.SafeFor : Nat → State → Prop
  | 0, s => s.Safe
  | k + 1, s => s.Safe ∧ ∀ t, step s = .next t → t.SafeFor k

/-- Parked (R101): Running, with the jump to PC itself at PC. It says nothing of DT, ST or beeps. -/
def State.Parked (s : State) : Prop :=
  s.run = .running ∧ s.pc.toNat ≤ 0xFFE ∧ s.fetch = .ok (encode (.jp (s.pc.setWidth 12)))

/-- A sprite with these row bytes, drawn at (cx, cy), toggles cell (px, py): some set bit of some row falls on it, with bit
7 leftmost and coordinates wrapping (R181). -/
abbrev SpriteCovers (rows : List Byte) (cx cy : Nat) (px : Fin 64) (py : Fin 32) : Prop :=
  ∃ r, r < rows.length ∧ ∃ c, c < 8 ∧ (rows.getD r 0).getLsbD (7 - c) = true ∧
    px.val = (cx + c) % 64 ∧ py.val = (cy + r) % 32

/-- How many bytes from I on an instruction accesses (R163 to R166, R181). -/
def accessLength : Instr → Nat
  | .drw _ _ n => n.toNat
  | .ldBX _ => 3
  | .ldMiX x | .ldXMi x => x.val + 1
  | .cls | .ret | .jp _ | .call _ | .seB _ _ | .sneB _ _ | .seR _ _ | .sneR _ _ | .ldB _ _ | .addB _ _ | .ldR _ _
  | .orR _ _ | .andR _ _ | .xorR _ _ | .addR _ _ | .sub _ _ | .shr _ _ | .subn _ _ | .shl _ _ | .ldI _ | .jpV0 _
  | .rnd _ _ | .skp _ | .sknp _ | .ldXDt _ | .ldXK _ | .ldDtX _ | .ldStX _ | .addI _ | .ldF _ => 0

/-- R220's table for the conditions an instruction raises: in s, `ins` raises this condition with this recorded address. -/
inductive RaisedBy (s : State) : Instr → Condition → Option Nat → Prop where
  /-- 00EE with an empty stack (R110) -/
  | emptyStack : s.sp.val = 0 → RaisedBy s .ret .stackUnderflow none
  /-- 2NNN with all 16 entries in use (R112) -/
  | fullStack (nnn : Addr) : s.sp.val = 16 → RaisedBy s (.call nnn) .stackOverflow none
  /-- EX9E or EXA1 with V[x] above 15, under the policy `fault`: the key number (R200, R201; log entry 8) -/
  | keyTooLarge {ins : Instr} (x : RegIdx) : ins = .skp x ∨ ins = .sknp x → s.cfg.keyIndexPolicy = .fault →
      15 < (s.reg x).toNat → RaisedBy s ins .outOfBoundsAccess (some (s.reg x).toNat)
  /-- an access past memory: the lowest address that does not exist (R59, R225; log entries 16, 17) -/
  | pastMemory {ins : Instr} {a : Nat} : s.i.toNat ≤ a → a < s.i.toNat + accessLength ins → 4096 ≤ a →
      (∀ b, s.i.toNat ≤ b → b < a → b < 4096) → RaisedBy s ins .outOfBoundsAccess (some a)

/-- Memory is in its canonical form, inside the 4096-byte space. -/
abbrev State.MemoryCanonical (s : State) : Prop := Memory.wf s.cfg.resetByte s.mem

/-- RUN and FAULT agree (R36, R37): a running core has no fault recorded, and a halted one has a record whose PC is the
PC it still shows (R221). They are the spec's decisions D16, D18 and D30 (log entries 2, 16, 27). -/
abbrev State.FaultConsistent (s : State) : Prop :=
  (s.run = .running → s.fault = none) ∧
  (s.run = .halted → s.fault.map FaultRecord.pc = some s.pc)

/-- PC never exceeds 0x10FE (R26), because a return address is the address of an instruction that was fetched: at most
0xFFE. -/
abbrev State.PcBounded (s : State) : Prop :=
  s.pc.toNat ≤ 0x10FE ∧ ∀ j : Fin 16, s.stack[j].toNat ≤ 0xFFE

end Sys2Proof.Machine
end

