-- ==== Sys2Proof/Certificates/Slice0/Obligations.lean ====
section
/-! DEFINITION. The statements for the provers. Each docstring names the rule or section of spec/ it formalises. -/

namespace Sys2Proof.Claims

open Sys2Proof.Machine

/-- What an instruction may write besides PC; the memory it may write is the `storeLen` bytes from `storeAt` on. -/
structure Footprint where
  regs : List RegIdx := []
  i : Bool := false
  stack : Bool := false
  delay : Bool := false
  sound : Bool := false
  display : Bool := false
  draws : Bool := false
  storeAt : Nat := 0
  storeLen : Nat := 0

/-- From s to t nothing changed outside the footprint, PC apart. -/
structure Unchanged (fp : Footprint) (s t : State) : Prop where
  regs : ∀ j, j ∉ fp.regs → t.reg j = s.reg j
  i : fp.i = false → t.i = s.i
  stack : fp.stack = false → t.sp = s.sp ∧ t.stack = s.stack
  delay : fp.delay = false → t.dt = s.dt
  sound : fp.sound = false → t.st = s.st
  display : fp.display = false → t.fb = s.fb ∧ t.dirty = s.dirty
  draws : fp.draws = false → t.draws = s.draws
  memory : ∀ a, a < fp.storeAt ∨ fp.storeAt + fp.storeLen ≤ a → t.peek a = s.peek a
  key : t.key = s.key
  run : t.run = s.run
  fault : t.fault = s.fault
  beeps : t.beeps = s.beeps
  cfg : t.cfg = s.cfg

/-- The instruction's word is w, and that word decodes as the instruction. -/
def EncodedAs (ins : Instr) (w : Nat) : Prop :=
  (encode ins).toNat = w ∧ decodeWord (BitVec.ofNat 16 w) = .instr ins

/-- Executing `ins` in s raises a fatal condition: RUN and FAULT are written, and nothing else (R221). -/
def Raises (ins : Instr) (s : State) (c : Condition) (addr : Option Nat) : Prop :=
  exec ins s = .next { s with
    run := .halted
    fault := some { kind := c, pc := s.pc, opcode := some (encode ins), addr := addr } }

/-- `ins` completes in every state; it skips one word if the condition holds, and writes nothing but PC. -/
def SkipsWhen (ins : Instr) (cond : State → Prop) : Prop :=
  ∀ s, ∃ t, exec ins s = .next t ∧ (cond s → t.pc = s.pc + 4) ∧ (¬ cond s → t.pc = s.pc + 2) ∧ Unchanged {} s t

/-- `ins` completes in every state, writes this value to V[x], and nothing else but PC, which goes to the next word. -/
def WritesRegister (ins : Instr) (x : RegIdx) (value : State → Byte) : Prop :=
  ∀ s, ∃ t, exec ins s = .next t ∧ t.reg x = value s ∧ t.pc = s.pc + 2 ∧ Unchanged { regs := [x] } s t

/-- The value an operand of the result statement of 8XY5, 8XY6, 8XY7 and 8XYE has: under `sequential` VF already holds the
flag, under `latched` it does not (R15, R143). -/
def operandAfterFlag (s : State) (x : RegIdx) (flag : Byte) : Byte :=
  if s.cfg.aluReadOrder = .sequential ∧ x = vF then flag else s.reg x

/-- `ins` completes from s with this final value in VF. -/
def LeavesVF (ins : Instr) (s : State) (w : Byte) : Prop := ∃ t, exec ins s = .next t ∧ t.reg vF = w

/-- `ins` completes from s with these final values in V[x] and VF. -/
def LeavesBoth (ins : Instr) (s : State) (x : RegIdx) (v w : Byte) : Prop :=
  ∃ t, exec ins s = .next t ∧ t.reg x = v ∧ t.reg vF = w

/-- A run of k completed steps from s to t, none of which executes an instruction of the set P. -/
inductive RunsWithout (P : Instr → Prop) : Nat → State → State → Prop where
  | zero (s : State) : RunsWithout P 0 s s
  | succ {k : Nat} {s u t : State} {op : Word} {ins : Instr} :
      s.run = .running → s.fetch = .ok op → decodeWord op = .instr ins → ¬ P ins →
      step s = .next u → u.run = .running → RunsWithout P k u t → RunsWithout P (k + 1) s t

/-- The states agree but for the stack, and the stacks agree below SP. -/
def SameButStaleStack (s s' : State) : Prop :=
  s' = { s with stack := s'.stack } ∧ ∀ j : Fin 16, j.val < s.sp.val → s'.stack[j] = s.stack[j]

/-- The registers an instruction may write: its destination, and VF where R27 names it. -/
def mayWrite : Instr → List RegIdx
  | .ldB x _ | .addB x _ | .ldR x _ | .orR x _ | .andR x _ | .xorR x _ | .rnd x _ | .ldXDt x | .ldXK x => [x]
  | .addR x _ | .sub x _ | .shr x _ | .subn x _ | .shl x _ => [x, vF]
  | .drw _ _ _ | .addI _ => [vF]
  | .ldXMi x => (List.finRange 16).filter (· ≤ x)
  | .cls | .ret | .jp _ | .call _ | .seB _ _ | .sneB _ _ | .seR _ _ | .sneR _ _ | .ldI _ | .jpV0 _ | .skp _ | .sknp _
  | .ldDtX _ | .ldStX _ | .ldF _ | .ldBX _ | .ldMiX _ => []

end Sys2Proof.Claims

section

open Sys2Proof Sys2Proof.Machine Sys2Proof.Claims

/-! ## Reset, load and the host's transactions -/

/-- R250's table at State.reset, with no image; the values of DIRTY, RUN and FAULT are the spec's decisions D21, D18, D30
(log entry 12). -/
def Obligations.ResetHoldsTheTableOfR250 : Prop :=
  let s := State.reset
  (∀ x, s.reg x = 0) ∧ s.i = 0 ∧ s.pc = 0x200 ∧ s.sp = 0 ∧ (∀ j : Fin 16, s.stack[j] = 0) ∧ s.dt = 0 ∧ s.st = 0 ∧
  (∀ px py, s.fb.cell px py = false) ∧ s.dirty = false ∧ (∀ k : Fin 16, s.key[k] = false) ∧
  s.run = .running ∧ s.fault = none ∧
  (∀ k : Fin 80, s.peek (0x050 + k.val) = s.cfg.fontData[k]) ∧
  (∀ a, a < 0x050 ∨ 0x0A0 ≤ a → s.peek a = 0)

/-- R56: after a load that fits, MEM holds the image at 0x200, the font table where the image does not cover it, and zero
everywhere else; for every setting of the parameters, from every state. -/
def Obligations.LoadWritesZerosFontThenImage : Prop :=
  ∀ (s : State) (bytes : List Byte), bytes.length ≤ 3584 → ∀ a, a < 4096 →
    (s.load bytes).2.peek a =
      if 0x200 ≤ a ∧ a < 0x200 + bytes.length then bytes.getD (a - 0x200) 0
      else if h : s.cfg.fontBase.toNat ≤ a ∧ a < s.cfg.fontBase.toNat + 80 then
        s.cfg.fontData[a - s.cfg.fontBase.toNat]'(by omega)
      else 0

/-- R252, R254 and R56: a load that fits, in any RUN state, answers ok and leaves nothing of the core's old state: every piece
of 10_state.md, memory among them, has its value after reset. The values of DIRTY, RUN and FAULT are the spec's decisions
D21, D18, D30 (log entry 12). What is not the core's state goes on: the model's own counters draws and beeps, and the
parameters (the model's choice, log entries 4, 5, 6). -/
def Obligations.LoadResetsTheWholeCore : Prop :=
  ∀ (s : State) (bytes : List Byte), bytes.length ≤ 3584 →
    (s.load bytes).1 = .ok ∧
    let t := (s.load bytes).2
    (∀ x, t.reg x = 0) ∧ t.i = 0 ∧ t.pc = 0x200 ∧ t.sp = 0 ∧ (∀ j : Fin 16, t.stack[j] = 0) ∧ t.dt = 0 ∧ t.st = 0 ∧
    (∀ px py, t.fb.cell px py = false) ∧ t.dirty = false ∧ (∀ k : Fin 16, t.key[k] = false) ∧
    t.run = .running ∧ t.fault = none ∧
    (∀ a, a < 4096 → t.peek a =
      if 0x200 ≤ a ∧ a < 0x200 + bytes.length then bytes.getD (a - 0x200) 0 else s.cfg.resetByte a) ∧
    t.draws = s.draws ∧ t.beeps = s.beeps ∧ t.cfg = s.cfg

/-- R253 (the spec's decision D20): a load that does not fit answers CapacityExceeded and leaves RUN Idle; with
LOAD_FAIL_RESETS false everything else stays as it was, with true the rest is as after a load of no image. -/
def Obligations.FailedLoadLeavesTheEngineIdle : Prop :=
  ∀ (s : State) (bytes : List Byte), 3584 < bytes.length →
    (s.load bytes).1 = .capacityExceeded ∧
    (s.cfg.loadFailResets = false → (s.load bytes).2 = { s with run := .idle }) ∧
    (s.cfg.loadFailResets = true → (s.load bytes).2 = { (s.load []).2 with run := .idle })

/-- R240 (the spec's decision D27): key_set and dirty_clear each write their one bit and nothing else. -/
def Obligations.KeySetAndDirtyClearWriteOneBit : Prop :=
  ∀ (s : State) (k : RegIdx) (b : Bool),
    ((s.keySet k b).key[k] = b ∧ (∀ j : RegIdx, j ≠ k → (s.keySet k b).key[j] = s.key[j]) ∧
      s.keySet k b = { s with key := (s.keySet k b).key }) ∧
    s.dirtyClear = { s with dirty := false }

/-- R32 and R240: the host reads cell (x, y) as element y * 64 + x of a grid of 2048, with DIRTY. -/
def Obligations.FramebufferReadIsRowMajor : Prop :=
  ∀ s : State, s.fbRead.1.length = 2048 ∧ s.fbRead.2 = s.dirty ∧
    ∀ (px : Fin 64) (py : Fin 32), s.fbRead.1[py.val * 64 + px.val]? = some (s.fb.cell px py)

/-! ## The instruction cycle -/

/-- R90, R58, R97, R98: in Running, with the two bytes at PC inside memory and decoding (big-endian) to `ins`, one step is
`exec ins`, and then, unless it raised, the timer tick with its beep. Which step beeps (ST = 1 before the tick) is the
spec's decision D22 (log entry 23), and that a waiting FX0A ticks as every completed step does is D23 (log entry 24). -/
def Obligations.StepRunsTheDecodedInstruction : Prop :=
  ∀ (s t : State) (ins : Instr), s.run = .running → s.pc.toNat + 1 < 4096 →
    decodeWord (s.peek s.pc.toNat ++ s.peek (s.pc.toNat + 1)) = .instr ins → exec ins s = .next t →
    step s = .next (if t.run = .halted then t else
      { t with
        dt := if t.dt = 0 then 0 else t.dt - 1
        st := if t.st = 0 then 0 else t.st - 1
        beeps := t.beeps + if t.st = 1 then 1 else 0 })

/-- R99 and R224 (the spec's decision D18): in Idle or Halted a step changes no state, and only a load leaves Halted. -/
def Obligations.OnlyALoadLeavesIdleOrHalted : Prop :=
  ∀ s : State, s.run = .idle ∨ s.run = .halted → step s = .next s ∧
    ∀ (m : Transaction) (t : State), s.after m = .next t → (∀ bytes, m ≠ .load bytes) →
      t.run = s.run ∧ t.fault = s.fault ∧ t.pc = s.pc

/-- R91 and R221 (the spec's decisions D6, D7, D16): a fetch that reaches past 0xFFF halts the core, records no opcode and
the first byte address out of range, and changes nothing else. -/
def Obligations.FetchPastMemoryIsFatal : Prop :=
  ∀ s : State, s.run = .running → 4096 ≤ s.pc.toNat + 1 →
    step s = .next { s with
      run := .halted
      fault := some { kind := .outOfBoundsAccess, pc := s.pc, opcode := none,
                      addr := some (if 4096 ≤ s.pc.toNat then s.pc.toNat else 4096) } }

/-- R93: a word that decodes as Unrecognized halts the core with the word and its PC in the record; nothing else changes. -/
def Obligations.UnrecognizedWordIsFatal : Prop :=
  ∀ (s : State) (op : Word), s.run = .running → s.fetch = .ok op → decodeWord op = .unrecognized →
    step s = .next { s with
      run := .halted
      fault := some { kind := .unrecognizedInstruction, pc := s.pc, opcode := some op, addr := none } }

/-- The core never stops the model: whatever the state, a step answers a next state (R90, R99, R221; log entry 2). -/
def Obligations.EveryStepAnswersANextState : Prop := ∀ s : State, ∃ t, step s = .next t

/-- R101 (the spec's decision D31): a parked state's step leaves V, I, SP, STACK, MEM, FB, DIRTY and PC unchanged and ticks
the timers (R97). R101 says nothing of beeps: that the tick beeps exactly if ST was 1 is R98 as the spec's decision D22
reads it (log entry 23). -/
def Obligations.ParkedStepOnlyTicksTheTimers : Prop :=
  ∀ s : State, s.Parked → step s = .next { s with
    dt := if s.dt = 0 then 0 else s.dt - 1
    st := if s.st = 0 then 0 else s.st - 1
    beeps := s.beeps + if s.st = 1 then 1 else 0 }

/-- R262 and R97: over k completed steps without FX15, DT counts down from n to max(n - k, 0). That a waiting step of FX0A
counts is the spec's decision D23 (log entry 24). -/
def Obligations.DelayTimerCountsSteps : Prop :=
  ∀ (k : Nat) (s t : State), RunsWithout (fun ins => ∃ x, ins = .ldDtX x) k s t → t.dt.toNat = s.dt.toNat - k

/-- R98, R97 and R262: over k completed steps without FX18, ST counts down from n to max(n - k, 0), and one beep is emitted
if n is from 1 to k, else none. The reading of the beep sentence is the spec's decision D22 (log entry 23), and that a
waiting step of FX0A counts is D23 (log entry 24). -/
def Obligations.SoundTimerBeepsOnceWhenItRunsOut : Prop :=
  ∀ (k : Nat) (s t : State), RunsWithout (fun ins => ∃ x, ins = .ldStX x) k s t →
    t.st.toNat = s.st.toNat - k ∧
    t.beeps = s.beeps + if 1 ≤ s.st.toNat ∧ s.st.toNat ≤ k then 1 else 0

/-- The host's two questions about one word (log entry 1): the word placed is what the next step fetches, and placing it
writes the two bytes at PC and RUN, and nothing else. -/
def Obligations.PlacedWordIsFetchedNext : Prop :=
  ∀ (s : State) (w : Nat), w < 2 ^ 16 → s.pc.toNat + 1 < 4096 → s.MemoryCanonical →
    let t := s.withFetchWord 16 w
    t.run = .running ∧ t.fetch = .ok (BitVec.ofNat 16 w) ∧ t.pc = s.pc ∧
    Unchanged { storeAt := s.pc.toNat, storeLen := 2 } { s with run := .running } t

/-! ## Encoding -/

/-- R72 and R73: X is bits 11:8 and Y is bits 7:4 of the word; and so for N, NN, NNN and the class (R71, R74, R75, R76). -/
def Obligations.FieldsAreTheirBits : Prop :=
  ∀ op : Word, (fieldX op).val = op.toNat / 0x100 % 0x10 ∧ (fieldY op).val = op.toNat / 0x10 % 0x10 ∧
    (fieldN op).toNat = op.toNat % 0x10 ∧ (fieldNN op).toNat = op.toNat % 0x100 ∧
    (fieldNNN op).toNat = op.toNat % 0x1000 ∧ (opClass op).toNat = op.toNat / 0x1000

/-- R78, R79, R81: every instruction, with every operand, decodes from its own word; and the host's table word too. -/
def Obligations.DecodeOfEncodeIsTheInstruction : Prop :=
  ∀ ins : Instr, decodeWord (encode ins) = .instr ins ∧ decodeTableWord 16 (encode ins).toNat = some ins

/-- R79, R84: a word has one meaning; what decodes as an instruction is that instruction's word, so no bit is dropped. For
classes 0x5 and 0x9, whose low nibble must be 0, this rests on the spec's decision D12 (log entry 19). -/
def Obligations.EncodeOfDecodeIsTheWord : Prop :=
  ∀ (op : Word) (ins : Instr), decodeWord op = .instr ins → encode ins = op

/-- R79 against R81: a word matches row k of the opcode map exactly when it decodes as row k's instruction; so the rows never
overlap, and a word that matches none is Unrecognized (R83). Classes 0x0, 0x5 and 0x9 follow the spec's decision D12. -/
def Obligations.DecoderAgreesWithTheOpcodeMap : Prop :=
  ∀ (op : Word) (k : Nat) (r : OpcodeRow), opcodeTable[k]? = some r →
    (r.admits op = true ↔ ∃ ins : Instr, decodeWord op = .instr ins ∧ ins.row = k)

/-- 95_test_vectors.md section 2.2: sample words and what they decode as. That 0x5121 and 0x912F are Unrecognized is the
spec's decision D12 (log entry 19). -/
def Obligations.SampleWordsDecode : Prop :=
  decodeWord 0x00E0 = .instr .cls ∧ decodeWord 0x00EE = .instr .ret ∧ decodeWord 0x0000 = .unrecognized ∧
  decodeWord 0x0FFF = .unrecognized ∧ decodeWord 0x5120 = .instr (.seR 1 2) ∧ decodeWord 0x5121 = .unrecognized ∧
  decodeWord 0x912F = .unrecognized ∧ decodeWord 0x8128 = .unrecognized ∧ decodeWord 0x812E = .instr (.shl 1 2) ∧
  decodeWord 0xD3A7 = .instr (.drw 3 0xA 7) ∧ decodeWord 0xE19E = .instr (.skp 1) ∧
  decodeWord 0xE19F = .unrecognized ∧ decodeWord 0xF165 = .instr (.ldXMi 1) ∧ decodeWord 0xF0FF = .unrecognized

/-! ## Control transfer -/

/-- R111 `JP nnn`. -/
def Obligations.JumpGoesToItsTarget : Prop :=
  ∀ nnn : Addr, EncodedAs (.jp nnn) (0x1000 + nnn.toNat) ∧
    ∀ s, ∃ t, exec (.jp nnn) s = .next t ∧ t.pc = nnn.setWidth 16 ∧ t.pc.toNat = nnn.toNat ∧ Unchanged {} s t ∧
      (nnn.toNat = 0xFFF → t.fetch = .error 0x1000)

/-- R117 `JP V0, nnn` (the spec's decision D8): the sum is stored unmasked; it is at most 0x10FE. -/
def Obligations.OffsetJumpAddsV0 : Prop :=
  ∀ nnn : Addr, EncodedAs (.jpV0 nnn) (0xB000 + nnn.toNat) ∧
    ∀ s, ∃ t, exec (.jpV0 nnn) s = .next t ∧ t.pc.toNat = (s.reg 0).toNat + nnn.toNat ∧ Unchanged {} s t ∧
      (0xFFF ≤ t.pc.toNat → t.fetch = .error (if 0x1000 ≤ t.pc.toNat then t.pc.toNat else 0x1000))

/-- R112 `CALL nnn`. -/
def Obligations.CallPushesItsOwnAddress : Prop :=
  ∀ nnn : Addr, EncodedAs (.call nnn) (0x2000 + nnn.toNat) ∧ ∀ s,
    (∀ h : s.sp.val < 16, ∃ t, exec (.call nnn) s = .next t ∧ t.stack[s.sp.val] = s.pc ∧
      (∀ j : Fin 16, j.val ≠ s.sp.val → t.stack[j] = s.stack[j]) ∧ t.sp.val = s.sp.val + 1 ∧
      t.pc = nnn.setWidth 16 ∧ Unchanged { stack := true } s t) ∧
    (s.sp.val = 16 → Raises (.call nnn) s .stackOverflow none)

/-- R110 `RET`. That the popped entry keeps its value is the spec's decision D26 (R30, log entry 13). -/
def Obligations.ReturnGoesPastTheCall : Prop :=
  EncodedAs .ret 0x00EE ∧ ∀ s,
    (∀ h : 0 < s.sp.val, ∃ t, exec .ret s = .next t ∧ t.sp.val = s.sp.val - 1 ∧ t.stack = s.stack ∧
      t.pc = s.stack[s.sp.val - 1] + 2 ∧ Unchanged { stack := true } s t) ∧
    (s.sp.val = 0 → Raises .ret s .stackUnderflow none)

/-- 90_conflicts.md C7, R110, R112 (95_test_vectors.md W7): whatever the callee did, if it left SP and STACK as the call did,
RET goes to the instruction after the call, with SP as before the call. -/
def Obligations.CallThenReturnComesBack : Prop :=
  ∀ (s : State) (nnn : Addr), s.sp.val < 16 → ∃ t, exec (.call nnn) s = .next t ∧
    ∀ u : State, u.sp = t.sp → u.stack = t.stack → ∃ r, exec .ret u = .next r ∧ r.pc = s.pc + 2 ∧ r.sp = s.sp

/-- R113 `SE Vx, nn` and R114 `SNE Vx, nn`. -/
def Obligations.SkipsOnAnImmediate : Prop :=
  ∀ (x : RegIdx) (nn : Byte),
    EncodedAs (.seB x nn) (0x3000 + 0x100 * x.val + nn.toNat) ∧ SkipsWhen (.seB x nn) (fun s => s.reg x = nn) ∧
    EncodedAs (.sneB x nn) (0x4000 + 0x100 * x.val + nn.toNat) ∧ SkipsWhen (.sneB x nn) (fun s => s.reg x ≠ nn)

/-- R115 `SE Vx, Vy` and R116 `SNE Vx, Vy` (the spec's decision D12 for the words with n ≠ 0). -/
def Obligations.SkipsOnARegister : Prop :=
  ∀ x y : RegIdx,
    EncodedAs (.seR x y) (0x5000 + 0x100 * x.val + 0x10 * y.val) ∧ SkipsWhen (.seR x y) (fun s => s.reg x = s.reg y) ∧
    EncodedAs (.sneR x y) (0x9000 + 0x100 * x.val + 0x10 * y.val) ∧
    SkipsWhen (.sneR x y) (fun s => s.reg x ≠ s.reg y) ∧
    ∀ n : Nibble, n ≠ 0 →
      decodeWord (BitVec.ofNat 16 (0x5000 + 0x100 * x.val + 0x10 * y.val + n.toNat)) = .unrecognized ∧
      decodeWord (BitVec.ofNat 16 (0x9000 + 0x100 * x.val + 0x10 * y.val + n.toNat)) = .unrecognized

/-! ## Loads and the ALU -/

/-- R133 `LD Vx, nn`, R134 `ADD Vx, nn` (no flag is written, even when the sum overflows), R135 `LD Vx, Vy`, R160
`LD I, nnn` and R203 `LD Vx, DT` (DT before the step's own tick). -/
def Obligations.LoadsAndAddImmediate : Prop :=
  (∀ (x : RegIdx) (nn : Byte),
    EncodedAs (.ldB x nn) (0x6000 + 0x100 * x.val + nn.toNat) ∧ WritesRegister (.ldB x nn) x (fun _ => nn) ∧
    EncodedAs (.addB x nn) (0x7000 + 0x100 * x.val + nn.toNat) ∧
    WritesRegister (.addB x nn) x (fun s => BitVec.ofNat 8 (((s.reg x).toNat + nn.toNat) % 256))) ∧
  (∀ x y : RegIdx, EncodedAs (.ldR x y) (0x8000 + 0x100 * x.val + 0x10 * y.val) ∧
    WritesRegister (.ldR x y) x (fun s => s.reg y)) ∧
  (∀ nnn : Addr, EncodedAs (.ldI nnn) (0xA000 + nnn.toNat) ∧
    ∀ s, ∃ t, exec (.ldI nnn) s = .next t ∧ t.i.toNat = nnn.toNat ∧ t.pc = s.pc + 2 ∧ Unchanged { i := true } s t) ∧
  (∀ x : RegIdx, EncodedAs (.ldXDt x) (0xF007 + 0x100 * x.val) ∧ WritesRegister (.ldXDt x) x (fun s => s.dt))

/-- R136, R137, R138: bitwise OR, AND and XOR; VF is unchanged unless x = F (the spec's decision D11, log entry 20). -/
def Obligations.LogicOperationsWriteNoFlag : Prop :=
  ∀ x y : RegIdx,
    EncodedAs (.orR x y) (0x8001 + 0x100 * x.val + 0x10 * y.val) ∧
    WritesRegister (.orR x y) x (fun s => BitVec.ofNat 8 ((s.reg x).toNat ||| (s.reg y).toNat)) ∧
    EncodedAs (.andR x y) (0x8002 + 0x100 * x.val + 0x10 * y.val) ∧
    WritesRegister (.andR x y) x (fun s => BitVec.ofNat 8 ((s.reg x).toNat &&& (s.reg y).toNat)) ∧
    EncodedAs (.xorR x y) (0x8003 + 0x100 * x.val + 0x10 * y.val) ∧
    WritesRegister (.xorR x y) x (fun s => BitVec.ofNat 8 ((s.reg x).toNat ^^^ (s.reg y).toNat))

/-- R139 `ADD Vx, Vy`, under both settings of ALU_READ_ORDER: VF is the carry out, also when x = F, because the flag write
comes last. -/
def Obligations.AddWithCarryOut : Prop :=
  ∀ x y : RegIdx, EncodedAs (.addR x y) (0x8004 + 0x100 * x.val + 0x10 * y.val) ∧
    ∀ s, ∃ t, exec (.addR x y) s = .next t ∧
      (x ≠ vF → (t.reg x).toNat = ((s.reg x).toNat + (s.reg y).toNat) % 256) ∧
      t.reg vF = (if (s.reg x).toNat + (s.reg y).toNat > 255 then 1 else 0) ∧
      t.pc = s.pc + 2 ∧ Unchanged { regs := [x, vF] } s t

/-- R140 `SUB Vx, Vy` and R142 `SUBN Vx, Vy`, for every x and y and both settings of ALU_READ_ORDER (the spec's decision
D10, log entry 7): VF is the not-borrow flag unless x = F, and the result reads its operands as the setting says. -/
def Obligations.SubtractWithNotBorrow : Prop :=
  ∀ x y : RegIdx,
    EncodedAs (.sub x y) (0x8005 + 0x100 * x.val + 0x10 * y.val) ∧
    EncodedAs (.subn x y) (0x8007 + 0x100 * x.val + 0x10 * y.val) ∧ ∀ s,
    (let flag : Byte := if (s.reg y).toNat > (s.reg x).toNat then 0 else 1
     ∃ t, exec (.sub x y) s = .next t ∧
      (t.reg x).toNat = (256 + (operandAfterFlag s x flag).toNat - (operandAfterFlag s y flag).toNat) % 256 ∧
      (x ≠ vF → t.reg vF = flag) ∧ t.pc = s.pc + 2 ∧ Unchanged { regs := [x, vF] } s t) ∧
    (let flag : Byte := if (s.reg x).toNat > (s.reg y).toNat then 0 else 1
     ∃ t, exec (.subn x y) s = .next t ∧
      (t.reg x).toNat = (256 + (operandAfterFlag s y flag).toNat - (operandAfterFlag s x flag).toNat) % 256 ∧
      (x ≠ vF → t.reg vF = flag) ∧ t.pc = s.pc + 2 ∧ Unchanged { regs := [x, vF] } s t)

/-- R141 `SHR Vx, Vy` and R144 `SHL Vx, Vy`, for every x and y and both settings of ALU_READ_ORDER (the spec's decision
D10): V[x] is shifted in place by one, V[y] is not read, and VF is the bit shifted out unless x = F. -/
def Obligations.ShiftsByOne : Prop :=
  ∀ x y : RegIdx,
    EncodedAs (.shr x y) (0x8006 + 0x100 * x.val + 0x10 * y.val) ∧
    EncodedAs (.shl x y) (0x800E + 0x100 * x.val + 0x10 * y.val) ∧ ∀ s,
    (let flag : Byte := BitVec.ofNat 8 ((s.reg x).toNat % 2)
     ∃ t, exec (.shr x y) s = .next t ∧ (t.reg x).toNat = (operandAfterFlag s x flag).toNat / 2 ∧
      (x ≠ vF → t.reg vF = flag) ∧ t.pc = s.pc + 2 ∧ Unchanged { regs := [x, vF] } s t) ∧
    (let flag : Byte := BitVec.ofNat 8 ((s.reg x).toNat / 128)
     ∃ t, exec (.shl x y) s = .next t ∧ (t.reg x).toNat = (operandAfterFlag s x flag).toNat * 2 % 256 ∧
      (x ≠ vF → t.reg vF = flag) ∧ t.pc = s.pc + 2 ∧ Unchanged { regs := [x, vF] } s t)

/-- R143's table (the spec's decision D10): what VF, and V[x] where it is another register, hold after 8XY4 to 8XYE when x
or y is F, in both columns. -/
def Obligations.FlagRegisterAsOperand : Prop :=
  ∀ (s : State) (x : RegIdx), x ≠ vF →
    let v := s.reg vF
    let r := s.reg x
    let carry : Byte := if v.toNat + r.toNat > 255 then 1 else 0
    let rGtV : Byte := if r.toNat > v.toNat then 0 else 1
    let vGtR : Byte := if v.toNat > r.toNat then 0 else 1
    LeavesVF (.addR vF x) s carry ∧ LeavesBoth (.addR x vF) s x (r + v) carry ∧
    LeavesVF (.sub vF vF) s 0 ∧ LeavesVF (.subn vF vF) s 0 ∧
    (s.cfg.aluReadOrder = .sequential →
      LeavesVF (.sub vF x) s (rGtV - r) ∧ LeavesBoth (.sub x vF) s x (r - vGtR) vGtR ∧ LeavesVF (.shr vF x) s 0 ∧
      LeavesVF (.subn vF x) s (r - vGtR) ∧ LeavesBoth (.subn x vF) s x (rGtV - r) rGtV ∧
      LeavesVF (.shl vF x) s (if v.toNat / 128 = 1 then 2 else 0)) ∧
    (s.cfg.aluReadOrder = .latched →
      LeavesVF (.sub vF x) s (v - r) ∧ LeavesBoth (.sub x vF) s x (r - v) vGtR ∧ LeavesVF (.shr vF x) s (v >>> 1) ∧
      LeavesVF (.subn vF x) s (r - v) ∧ LeavesBoth (.subn x vF) s x (v - r) rGtV ∧ LeavesVF (.shl vF x) s (v <<< 1))

/-- R145 `RND Vx, nn`: the draw under the mask, whatever the draw is (a free value, the spec's decision D24, log entry 4);
the next CXNN takes another draw. -/
def Obligations.RandomByteUnderAMask : Prop :=
  ∀ (x : RegIdx) (nn : Byte), EncodedAs (.rnd x nn) (0xC000 + 0x100 * x.val + nn.toNat) ∧
    ∀ s, ∃ t, exec (.rnd x nn) s = .next t ∧ t.reg x = (Config.randDraw s.draws &&& nn) ∧ t.draws = s.draws + 1 ∧
      (nn = 0 → t.reg x = 0) ∧ t.pc = s.pc + 2 ∧ Unchanged { regs := [x], draws := true } s t

/-! ## Index and memory -/

/-- R161 `ADD I, Vx`: the sum modulo 2^16 (the spec's decision D9), then VF from the I just written; with x = F the sum uses
the old VF. -/
def Obligations.AddToIndexWithOverflowFlag : Prop :=
  ∀ x : RegIdx, EncodedAs (.addI x) (0xF01E + 0x100 * x.val) ∧
    ∀ s, ∃ t, exec (.addI x) s = .next t ∧ t.i.toNat = (s.i.toNat + (s.reg x).toNat) % 65536 ∧
      t.reg vF = (if t.i.toNat > 0xFFF then 1 else 0) ∧ t.pc = s.pc + 2 ∧ Unchanged { regs := [vF], i := true } s t

/-- R162 `LD F, Vx`, for the parameter FONT_BASE (the spec's decisions D3, D5, log entry 10): V[x] is not masked; at the
default base I is 0x050 + 5 * V[x] exactly. -/
def Obligations.FontPointerIsBasePlusFiveTimes : Prop :=
  ∀ x : RegIdx, EncodedAs (.ldF x) (0xF029 + 0x100 * x.val) ∧
    ∀ s, ∃ t, exec (.ldF x) s = .next t ∧
      t.i.toNat = (s.cfg.fontBase.toNat + 5 * (s.reg x).toNat) % 65536 ∧
      (s.cfg.fontBase = 0x050 → t.i.toNat = 0x050 + 5 * (s.reg x).toNat) ∧
      t.pc = s.pc + 2 ∧ Unchanged { i := true } s t

/-- R163 `LD B, Vx`: the three decimal digits at I, I + 1 and I + 2; or OutOfBoundsAccess at the lowest address that does not
exist, with nothing written. The address checks that come first, do not wrap and record the lowest address are the spec's
decisions D7, D16 and D17 (log entries 16, 17). -/
def Obligations.DecimalDigitsStored : Prop :=
  ∀ x : RegIdx, EncodedAs (.ldBX x) (0xF033 + 0x100 * x.val) ∧ ∀ s : State, s.MemoryCanonical →
    (s.i.toNat + 2 < 4096 → ∃ t, exec (.ldBX x) s = .next t ∧
      (t.peek s.base).toNat = (s.reg x).toNat / 100 ∧
      (t.peek (s.base + 1)).toNat = (s.reg x).toNat / 10 % 10 ∧
      (t.peek (s.base + 2)).toNat = (s.reg x).toNat % 10 ∧
      t.pc = s.pc + 2 ∧ Unchanged { storeAt := s.base, storeLen := 3 } s t) ∧
    (4096 ≤ s.i.toNat + 2 → Raises (.ldBX x) s .outOfBoundsAccess (some (max s.i.toNat 4096)))

/-- R164 `LD [I], Vx`: V0 to Vx, inclusive, at I and after; I advances by x + 1 modulo 2^16 (the spec's decision D9). -/
def Obligations.RegistersStored : Prop :=
  ∀ x : RegIdx, EncodedAs (.ldMiX x) (0xF055 + 0x100 * x.val) ∧ ∀ s : State, s.MemoryCanonical →
    s.i.toNat + x.val < 4096 → ∃ t, exec (.ldMiX x) s = .next t ∧
      (∀ k : RegIdx, k ≤ x → t.peek (s.base + k.val) = s.reg k) ∧
      t.i.toNat = (s.i.toNat + x.val + 1) % 65536 ∧ t.pc = s.pc + 2 ∧
      Unchanged { i := true, storeAt := s.base, storeLen := blockSize x } s t

/-- R165 `LD Vx, [I]`: V0 to Vx, inclusive, from I on; I advances by x + 1 modulo 2^16 (the spec's decision D9); no memory
changes. -/
def Obligations.RegistersLoaded : Prop :=
  ∀ x : RegIdx, EncodedAs (.ldXMi x) (0xF065 + 0x100 * x.val) ∧ ∀ s : State,
    s.i.toNat + x.val < 4096 → ∃ t, exec (.ldXMi x) s = .next t ∧
      (∀ k : RegIdx, k ≤ x → t.reg k = s.peek (s.base + k.val)) ∧
      t.i.toNat = (s.i.toNat + x.val + 1) % 65536 ∧ t.pc = s.pc + 2 ∧
      Unchanged { regs := mayWrite (.ldXMi x), i := true } s t

/-- R164 and R165 together: what FX55 stored, FX65 loads back from the same I, whatever the registers hold by then. -/
def Obligations.StoreThenLoadRestoresRegisters : Prop :=
  ∀ (s : State) (x : RegIdx), s.MemoryCanonical → s.i.toNat + x.val < 4096 → ∃ t, exec (.ldMiX x) s = .next t ∧
    ∀ u : State, u.i = s.i → (∀ a, u.peek a = t.peek a) → ∃ w, exec (.ldXMi x) u = .next w ∧
      (∀ k : RegIdx, k ≤ x → w.reg k = s.reg k) ∧ w.i = t.i

/-- R59, R223, R225 (the spec's decisions D7, D16, D17): DXYN, FX55 and FX65 check every address first; if one is past
0xFFF they raise OutOfBoundsAccess at the lowest, and nothing else changes. -/
def Obligations.AddressPastMemoryIsFatal : Prop :=
  ∀ s : State,
    (∀ (x y : RegIdx) (n : Nibble), n ≠ 0 → 4096 < s.i.toNat + n.toNat →
      Raises (.drw x y n) s .outOfBoundsAccess (some (max s.i.toNat 4096))) ∧
    (∀ x : RegIdx, 4096 ≤ s.i.toNat + x.val →
      Raises (.ldMiX x) s .outOfBoundsAccess (some (max s.i.toNat 4096)) ∧
      Raises (.ldXMi x) s .outOfBoundsAccess (some (max s.i.toNat 4096)))

/-- R64 and R261: a block FX55 stores over the word at the next PC is what the next step fetches. -/
def Obligations.StoreIsSeenByTheNextFetch : Prop :=
  ∀ (s : State) (x k : RegIdx) (h : k.val + 1 ≤ x.val), s.MemoryCanonical → s.i.toNat + x.val < 4096 →
    s.i.toNat + k.val = s.pc.toNat + 2 → ∃ t, exec (.ldMiX x) s = .next t ∧
      t.endStep.fetch = .ok (s.reg k ++ s.reg ⟨k.val + 1, by omega⟩)

/-! ## Display -/

/-- R180 `CLS`. -/
def Obligations.ClearScreen : Prop :=
  EncodedAs .cls 0x00E0 ∧ ∀ s, ∃ t, exec .cls s = .next t ∧ (∀ px py, t.fb.cell px py = false) ∧ t.dirty = true ∧
    t.pc = s.pc + 2 ∧ Unchanged { display := true } s t

/-- R181 `DRW Vx, Vy, n` (the spec's decisions D14, D15, log entries 21, 22): every cell the sprite covers is toggled, and
no other; VF is 1 if a covered cell was set, else 0; DIRTY is set; I is unchanged. With n = 0 nothing is read or drawn. -/
def Obligations.SpriteIsXoredWithCollision : Prop :=
  ∀ (x y : RegIdx) (n : Nibble), EncodedAs (.drw x y n) (0xD000 + 0x100 * x.val + 0x10 * y.val + n.toNat) ∧
    ∀ s : State, n = 0 ∨ s.i.toNat + n.toNat ≤ 4096 → ∃ t, exec (.drw x y n) s = .next t ∧
      (let covered := SpriteCovers ((List.range n.toNat).map fun r => s.peek (s.i.toNat + r)) (s.reg x).toNat (s.reg y).toNat
       (∀ px py, t.fb.cell px py = (s.fb.cell px py ^^ decide (covered px py))) ∧
       ((∃ px py, covered px py ∧ s.fb.cell px py = true) → t.reg vF = 1) ∧
       ((¬ ∃ px py, covered px py ∧ s.fb.cell px py = true) → t.reg vF = 0)) ∧
      t.dirty = true ∧ t.pc = s.pc + 2 ∧ Unchanged { regs := [vF], display := true } s t

/-- R181 (95_test_vectors.md W4): drawing the same sprite again at the same place restores the framebuffer, and collides
exactly if some covered cell was clear before the first draw. Which cells are covered rests on the bit order, the spec's
decision D14 (log entry 21, PRESUMED), and the form n = 0, which covers none, on its decision D15 (log entry 22). -/
def Obligations.DrawingTwiceRestoresTheScreen : Prop :=
  ∀ (x y : RegIdx) (n : Nibble) (s : State), n = 0 ∨ s.i.toNat + n.toNat ≤ 4096 → ∃ t, exec (.drw x y n) s = .next t ∧
    ∀ u : State, u.fb = t.fb → u.i = s.i → u.reg x = s.reg x → u.reg y = s.reg y → (∀ a, u.peek a = s.peek a) →
      ∃ w, exec (.drw x y n) u = .next w ∧ w.fb = s.fb ∧
        (w.reg vF = 1 ↔ ∃ px py, SpriteCovers ((List.range n.toNat).map fun r => s.peek (s.i.toNat + r))
          (s.reg x).toNat (s.reg y).toNat px py ∧ s.fb.cell px py = false)

/-! ## Keys and timers -/

/-- R200 `SKP Vx` and R201 `SKNP Vx`: for V[x] up to 15 the key V[x] decides. Above 15 (the spec's decision D13, log entry
8) the policy `fault` raises OutOfBoundsAccess with the key number, and `mask` takes the key V[x] mod 16. -/
def Obligations.SkipsOnAKey : Prop :=
  ∀ x : RegIdx, EncodedAs (.skp x) (0xE09E + 0x100 * x.val) ∧ EncodedAs (.sknp x) (0xE0A1 + 0x100 * x.val) ∧
    ∀ s : State,
      ((s.reg x).toNat ≤ 15 ∨ s.cfg.keyIndexPolicy = .mask → ∀ k : RegIdx, k.val = (s.reg x).toNat % 16 →
        (∃ t, exec (.skp x) s = .next t ∧ t.pc = (if s.key[k] then s.pc + 4 else s.pc + 2) ∧ Unchanged {} s t) ∧
        (∃ t, exec (.sknp x) s = .next t ∧ t.pc = (if s.key[k] then s.pc + 2 else s.pc + 4) ∧ Unchanged {} s t)) ∧
      (15 < (s.reg x).toNat → s.cfg.keyIndexPolicy = .fault →
        Raises (.skp x) s .outOfBoundsAccess (some (s.reg x).toNat) ∧
        Raises (.sknp x) s .outOfBoundsAccess (some (s.reg x).toNat))

/-- R202 `LD Vx, K`: with no key down nothing changes and PC holds; with a key down V[x] is the lowest one. -/
def Obligations.KeyWait : Prop :=
  ∀ x : RegIdx, EncodedAs (.ldXK x) (0xF00A + 0x100 * x.val) ∧ ∀ s : State,
    ((∀ k : RegIdx, s.key[k] = false) → exec (.ldXK x) s = .next s) ∧
    ∀ k : RegIdx, s.key[k] = true → (∀ j : RegIdx, j < k → s.key[j] = false) →
      ∃ t, exec (.ldXK x) s = .next t ∧ (t.reg x).toNat = k.val ∧ t.pc = s.pc + 2 ∧ Unchanged { regs := [x] } s t

/-- R204 `LD DT, Vx` and R205 `LD ST, Vx`; the same step's tick follows (R97), so V[x] = 1 in R205 beeps in its own step
(the spec's decision D22). -/
def Obligations.TimersWritten : Prop :=
  ∀ x : RegIdx, EncodedAs (.ldDtX x) (0xF015 + 0x100 * x.val) ∧ EncodedAs (.ldStX x) (0xF018 + 0x100 * x.val) ∧ ∀ s,
    (∃ t, exec (.ldDtX x) s = .next t ∧ t.dt = s.reg x ∧ t.pc = s.pc + 2 ∧ Unchanged { delay := true } s t ∧
      (s.run = .running → t.endStep.dt.toNat = (s.reg x).toNat - 1)) ∧
    (∃ t, exec (.ldStX x) s = .next t ∧ t.st = s.reg x ∧ t.pc = s.pc + 2 ∧ Unchanged { sound := true } s t ∧
      (s.run = .running → t.endStep.st.toNat = (s.reg x).toNat - 1 ∧
        t.endStep.beeps = s.beeps + if (s.reg x).toNat = 1 then 1 else 0))

/-! ## Whole-machine rules -/

/-- R51: of the instructions only FX33 and FX55 write memory, and only the bytes they are named for. -/
def Obligations.OnlyTwoInstructionsWriteMemory : Prop :=
  ∀ (ins : Instr) (s t : State), exec ins s = .next t → ∀ a, t.peek a ≠ s.peek a →
    (∃ x, ins = .ldBX x ∧ s.base ≤ a ∧ a ≤ s.base + 2) ∨ (∃ x, ins = .ldMiX x ∧ s.base ≤ a ∧ a ≤ s.base + x.val)

/-- R24 and R27 (the spec's decision D11): an instruction writes no register but its destinations and, where R27 names it,
VF; and DT and ST are written by FX15 and FX18 alone (R31). -/
def Obligations.RegistersAndTimersWrittenOnlyWhereNamed : Prop :=
  ∀ (ins : Instr) (s t : State), exec ins s = .next t →
    (∀ j, j ∉ mayWrite ins → t.reg j = s.reg j) ∧
    ((∀ x, ins ≠ .ldDtX x) → t.dt = s.dt) ∧ ((∀ x, ins ≠ .ldStX x) → t.st = s.st)

/-- R30, R118: only 2NNN and 00EE touch SP or STACK. R182, R33: only 00E0 and DXYN write FB or DIRTY. R28: only ANNN, FX1E,
FX29, FX55 and FX65 write I. -/
def Obligations.StackDisplayAndIndexWrittenOnlyWhereNamed : Prop :=
  ∀ (ins : Instr) (s t : State), exec ins s = .next t →
    (ins ≠ .ret → (∀ nnn, ins ≠ .call nnn) → t.sp = s.sp ∧ t.stack = s.stack) ∧
    (ins ≠ .cls → (∀ x y n, ins ≠ .drw x y n) → t.fb = s.fb ∧ t.dirty = s.dirty) ∧
    (t.i ≠ s.i → (∃ nnn, ins = .ldI nnn) ∨ (∃ x, ins = .addI x ∨ ins = .ldF x ∨ ins = .ldMiX x ∨ ins = .ldXMi x))

/-- R220: the instructions R220 lists never raise. -/
def Obligations.OnlyEightInstructionsCanRaise : Prop :=
  ∀ (ins : Instr) (s t : State), exec ins s = .next t → s.run ≠ .halted → t.run = .halted →
    ins = .ret ∨ (∃ nnn, ins = .call nnn) ∨ (∃ x y n, ins = .drw x y n) ∨
    ∃ x, ins = .skp x ∨ ins = .sknp x ∨ ins = .ldBX x ∨ ins = .ldMiX x ∨ ins = .ldXMi x

/-- R226 (the spec's decision D29) and R34: the keys are seen only by EX9E, EXA1 and FX0A; with any other instruction, other
keys change nothing but the keys themselves. -/
def Obligations.KeysAreSeenByThreeInstructions : Prop :=
  ∀ (ins : Instr) (s t : State) (key : Vector Bool 16),
    (∀ x, ins ≠ .skp x ∧ ins ≠ .sknp x ∧ ins ≠ .ldXK x) → exec ins s = .next t →
    exec ins { s with key := key } = .next { t with key := key }

/-- R33, R31, R98: no instruction reads DIRTY, ST or the beep record: with other values of them it does the same, and each
of DIRTY and ST is either left alone in both runs, or written in both with the same value. -/
def Obligations.HostFacingStateIsNotRead : Prop :=
  ∀ (ins : Instr) (s t : State) (dirty : Bool) (st : Byte) (beeps : Nat), exec ins s = .next t →
    ∃ t', exec ins { s with dirty := dirty, st := st, beeps := beeps } = .next t' ∧
      t' = { t with dirty := t'.dirty, st := t'.st, beeps := beeps } ∧
      ((t.dirty = s.dirty ∧ t'.dirty = dirty) ∨
        (t.dirty = true ∧ t'.dirty = true ∧ (ins = .cls ∨ ∃ x y n, ins = .drw x y n))) ∧
      ((t.st = s.st ∧ t'.st = st) ∨ (t.st = t'.st ∧ ∃ x, ins = .ldStX x))

/-- R30 (the spec's decision D26): a popped entry keeps its value, and no instruction can observe it. -/
def Obligations.StaleStackEntriesAreUnobservable : Prop :=
  ∀ (ins : Instr) (s s' t : State), SameButStaleStack s s' → exec ins s = .next t →
    ∃ t', exec ins s' = .next t' ∧ SameButStaleStack t t'

/-- R220 to R223, R225: a step that halts the core changes RUN and FAULT and nothing else. The record holds PC; for a fetch
fault no word and the first byte address that does not exist; for a word that matches no row that word and no address; and
for an instruction its word, with the condition and the address R220's table gives that instruction in that state
(`RaisedBy`). That nothing else changes, which address is recorded and what the record holds are the spec's decisions D16,
D17, D30, exact addresses D7, and the key number D13 (log entries 8, 15, 16, 17). -/
def Obligations.FatalStepsArePrecise : Prop :=
  ∀ s t : State, s.run = .running → step s = .next t → t.run = .halted → ∃ r : FaultRecord,
    t = { s with run := .halted, fault := some r } ∧ r.pc = s.pc ∧
    ((4096 ≤ s.pc.toNat + 1 ∧ r.kind = .outOfBoundsAccess ∧ r.opcode = none ∧ r.addr = some (max s.pc.toNat 4096)) ∨
     (∃ op, s.fetch = .ok op ∧ r.opcode = some op ∧
       ((decodeWord op = .unrecognized ∧ r.kind = .unrecognizedInstruction ∧ r.addr = none) ∨
        (∃ ins, decodeWord op = .instr ins ∧ RaisedBy s ins r.kind r.addr))))

/-! ## Invariants -/

/-- The invariants hold at reset (R250) and at power-on (R251), for every setting of the parameters. The power-on state is the
spec's decision D19, RUN and FAULT at reset are its decisions D18 and D30, and PC = 0x200 is its own derivation (R26); log
entry 12, DEDUCED. -/
def Obligations.InvariantsHoldAtTheStart : Prop :=
  ∀ cfg : Params, ∀ s ∈ [{ State.reset with cfg := cfg }, { State.powerOn with cfg := cfg }],
    s.MemoryCanonical ∧ s.FaultConsistent ∧ s.PcBounded

/-- Memory keeps its canonical form, inside the 4096-byte space, through every transaction of the host, steps among them
(R50, R52, R59). -/
def Obligations.MemoryStaysCanonical : Prop :=
  ∀ (s t : State) (m : Transaction), s.MemoryCanonical → s.after m = .next t → t.MemoryCanonical

/-- RUN and FAULT stay consistent through every transaction (R36, R37, R221, R222, R252, R253): a running core has no record,
and a halted one has a record whose PC is the PC it shows. RUN, FAULT and what a halted state holds are the spec's decisions
D16, D18 and D30, and the state after a failed load is D20 (log entries 2, 11, 16, 27). -/
def Obligations.RunAndFaultStayConsistent : Prop :=
  ∀ (s t : State) (m : Transaction), s.FaultConsistent → s.after m = .next t → t.FaultConsistent

/-- R26: PC never exceeds 0x10FE, so its arithmetic modulo 2^16 never acts; kept by every transaction. -/
def Obligations.PcStaysBounded : Prop :=
  ∀ (s t : State) (m : Transaction), s.PcBounded → s.after m = .next t → t.PcBounded

end
end

