-- ==== Sys2Proof/Laws/Decode.lean ====
section
/-! SUPPORT. The fields of the three encoding formats (R78), one lemma per field, and the byte order of a word (R58). -/

namespace Sys2Proof

theorem opClass_formatA (c : BitVec 4) (nnn : Addr) : opClass (formatA c nnn) = c := by
  apply BitVec.eq_of_getLsbD_eq
  intro i hi
  simp only [opClass, formatA, BitVec.getLsbD_extractLsb', BitVec.getLsbD_append]
  simp [hi]

theorem fieldNNN_formatA (c : BitVec 4) (nnn : Addr) : fieldNNN (formatA c nnn) = nnn := by
  apply BitVec.eq_of_getLsbD_eq
  intro i hi
  simp only [fieldNNN, formatA, BitVec.getLsbD_extractLsb', BitVec.getLsbD_append]
  simp [hi]

theorem opClass_formatXB (c : BitVec 4) (x : RegIdx) (nn : Byte) : opClass (formatXB c x nn) = c := by
  apply BitVec.eq_of_getLsbD_eq
  intro i hi
  simp only [opClass, formatXB, BitVec.getLsbD_extractLsb', BitVec.getLsbD_append]
  simp [hi, show ¬ 12 + i < 8 by omega, show ¬ 12 + i - 8 < 4 by omega, show 12 + i - 8 - 4 = i by omega]

theorem fieldX_formatXB (c : BitVec 4) (x : RegIdx) (nn : Byte) : fieldX (formatXB c x nn) = x := by
  have h : (formatXB c x nn).extractLsb' 8 4 = BitVec.ofFin x := by
    apply BitVec.eq_of_getLsbD_eq
    intro i hi
    simp only [formatXB, BitVec.getLsbD_extractLsb', BitVec.getLsbD_append]
    simp [hi]
  unfold fieldX
  rw [h]

theorem fieldNN_formatXB (c : BitVec 4) (x : RegIdx) (nn : Byte) : fieldNN (formatXB c x nn) = nn := by
  apply BitVec.eq_of_getLsbD_eq
  intro i hi
  simp only [fieldNN, formatXB, BitVec.getLsbD_extractLsb', BitVec.getLsbD_append]
  simp [hi]

theorem opClass_formatXYN (c : BitVec 4) (x y : RegIdx) (n : Nibble) : opClass (formatXYN c x y n) = c := by
  apply BitVec.eq_of_getLsbD_eq
  intro i hi
  simp only [opClass, formatXYN, BitVec.getLsbD_extractLsb', BitVec.getLsbD_append]
  simp [hi, show ¬ 12 + i < 4 by omega, show ¬ 12 + i - 4 < 4 by omega, show ¬ 12 + i - 4 - 4 < 4 by omega,
    show 12 + i - 4 - 4 - 4 = i by omega]

theorem fieldX_formatXYN (c : BitVec 4) (x y : RegIdx) (n : Nibble) : fieldX (formatXYN c x y n) = x := by
  have h : (formatXYN c x y n).extractLsb' 8 4 = BitVec.ofFin x := by
    apply BitVec.eq_of_getLsbD_eq
    intro i hi
    simp only [formatXYN, BitVec.getLsbD_extractLsb', BitVec.getLsbD_append]
    simp [hi, show ¬ 8 + i < 4 by omega, show ¬ 8 + i - 4 < 4 by omega, show 8 + i - 4 - 4 = i by omega]
  unfold fieldX
  rw [h]

theorem fieldY_formatXYN (c : BitVec 4) (x y : RegIdx) (n : Nibble) : fieldY (formatXYN c x y n) = y := by
  have h : (formatXYN c x y n).extractLsb' 4 4 = BitVec.ofFin y := by
    apply BitVec.eq_of_getLsbD_eq
    intro i hi
    simp only [formatXYN, BitVec.getLsbD_extractLsb', BitVec.getLsbD_append]
    simp [hi]
  unfold fieldY
  rw [h]

theorem fieldN_formatXYN (c : BitVec 4) (x y : RegIdx) (n : Nibble) : fieldN (formatXYN c x y n) = n := by
  apply BitVec.eq_of_getLsbD_eq
  intro i hi
  simp only [fieldN, formatXYN, BitVec.getLsbD_extractLsb', BitVec.getLsbD_append]
  simp [hi]

/-! ## The formats as numbers -/

theorem formatA_toNat (c : BitVec 4) (nnn : Addr) : (formatA c nnn).toNat = 0x1000 * c.toNat + nnn.toNat := by
  have h := nnn.isLt
  simp only [formatA, BitVec.toNat_append]
  rw [← Nat.shiftLeft_add_eq_or_of_lt h, Nat.shiftLeft_eq]
  omega

theorem formatXB_toNat (c : BitVec 4) (x : RegIdx) (nn : Byte) :
    (formatXB c x nn).toNat = 0x1000 * c.toNat + 0x100 * x.val + nn.toNat := by
  have h := nn.isLt
  have hx : (BitVec.ofFin x : BitVec 4).toNat < 2 ^ 4 := (BitVec.ofFin x : BitVec 4).isLt
  have hx' : (BitVec.ofFin x : BitVec 4).toNat = x.val := rfl
  simp only [formatXB, BitVec.toNat_append]
  rw [← Nat.shiftLeft_add_eq_or_of_lt h, ← Nat.shiftLeft_add_eq_or_of_lt hx, Nat.shiftLeft_eq, Nat.shiftLeft_eq, hx']
  omega

theorem formatXYN_toNat (c : BitVec 4) (x y : RegIdx) (n : Nibble) :
    (formatXYN c x y n).toNat = 0x1000 * c.toNat + 0x100 * x.val + 0x10 * y.val + n.toNat := by
  have h := n.isLt
  have hx : (BitVec.ofFin x : BitVec 4).toNat < 2 ^ 4 := (BitVec.ofFin x : BitVec 4).isLt
  have hx' : (BitVec.ofFin x : BitVec 4).toNat = x.val := rfl
  have hy : (BitVec.ofFin y : BitVec 4).toNat < 2 ^ 4 := (BitVec.ofFin y : BitVec 4).isLt
  have hy' : (BitVec.ofFin y : BitVec 4).toNat = y.val := rfl
  simp only [formatXYN, BitVec.toNat_append]
  rw [← Nat.shiftLeft_add_eq_or_of_lt h, ← Nat.shiftLeft_add_eq_or_of_lt hy, ← Nat.shiftLeft_add_eq_or_of_lt hx,
    Nat.shiftLeft_eq, Nat.shiftLeft_eq, Nat.shiftLeft_eq, hx', hy']
  omega

/-- The two bytes of a word give the word back, whatever the word. -/
theorem wordOfBytes_bytesOfWord (w : Word) : wordOfBytes (w.extractLsb' 8 8) (w.extractLsb' 0 8) = w := by
  apply BitVec.eq_of_getLsbD_eq
  intro i hi
  simp only [wordOfBytes, BitVec.getLsbD_append, BitVec.getLsbD_extractLsb']
  by_cases h : i < 8
  · simp [h]
  · simp [h, show i - 8 < 8 by omega, show 8 + (i - 8) = i by omega]

theorem decodeBytes_bytesOfWord (w : Word) (rest : List Byte) :
    decodeBytes (bytesOfWord w ++ rest) = some (decodeWord w, rest) := by
  simp [decodeBytes, bytesOfWord, wordOfBytes_bytesOfWord]

end Sys2Proof
end

