-- ==== Sys2Proof/Laws/Memory.lean ====
section
/-! SUPPORT. The laws of memory: a read after a write, the canonical form kept by every write, and equal memories being
equal lists. -/

namespace Sys2Proof.Machine

variable {bg : Nat → Byte}

theorem Memory.read_cons_same (a : Nat) (b : Byte) (m : Memory) (h : b = bg a → m.read bg a = bg a) :
    (Memory.cons bg a b m).read bg a = b := by
  unfold Memory.cons
  split
  · next hb => rw [h hb, hb]
  · simp [Memory.read]

theorem Memory.read_cons_other {a a' : Nat} (h : a' ≠ a) (b : Byte) (m : Memory) :
    (Memory.cons bg a b m).read bg a' = m.read bg a' := by
  unfold Memory.cons
  split
  · rfl
  · simp [Memory.read, h]

/-- An address below every listed one reads as the background. -/
theorem Memory.read_unlisted {m : Memory} {a : Nat} (h : ∀ p ∈ m, a ≠ p.1) : m.read bg a = bg a := by
  induction m with
  | nil => rfl
  | cons p rest ih =>
    obtain ⟨c, v⟩ := p
    have hc : a ≠ c := h (c, v) (by simp)
    simp only [Memory.read, hc, if_false]
    exact ih fun p hp => h p (by simp [hp])

/-- A read after a write to the same address gives the value written. -/
theorem Memory.read_write_same {m : Memory} (hm : m.Pairwise (fun p q => p.1 < q.1)) (a : Nat) (b : Byte) :
    (m.write bg a b).read bg a = b := by
  induction m with
  | nil => exact Memory.read_cons_same a b [] fun _ => rfl
  | cons p rest ih =>
    obtain ⟨c, v⟩ := p
    rw [List.pairwise_cons] at hm
    simp only [Memory.write]
    split
    · next hlt =>
      refine Memory.read_cons_same a b _ fun _ => Memory.read_unlisted ?_
      intro p hp
      rcases List.mem_cons.1 hp with rfl | hp
      · exact Nat.ne_of_lt hlt
      · exact Nat.ne_of_lt (Nat.lt_trans hlt (hm.1 p hp))
    · split
      · next heq =>
        subst heq
        refine Memory.read_cons_same a b _ fun _ => Memory.read_unlisted ?_
        intro p hp
        exact Nat.ne_of_lt (hm.1 p hp)
      · next hne => simp [Memory.read, hne, ih hm.2]

/-- A write leaves every other address alone. -/
theorem Memory.read_write_other {a a' : Nat} (h : a' ≠ a) (m : Memory) (b : Byte) :
    (m.write bg a b).read bg a' = m.read bg a' := by
  induction m with
  | nil => exact Memory.read_cons_other h b []
  | cons p rest ih =>
    obtain ⟨c, v⟩ := p
    simp only [Memory.write]
    split
    · exact Memory.read_cons_other h b _
    · split
      · next heq => subst heq; rw [Memory.read_cons_other h]; simp [Memory.read, h]
      · simp [Memory.read, ih]

theorem Memory.mem_write {m : Memory} {a : Nat} {b : Byte} {p : Host.Cell} (hp : p ∈ m.write bg a b) :
    p ∈ m ∨ (p = (a, b) ∧ b ≠ bg a) := by
  induction m with
  | nil =>
    simp only [Memory.write, Memory.cons] at hp
    split at hp
    · simp at hp
    · next h => exact .inr ⟨by simpa using hp, h⟩
  | cons q rest ih =>
    obtain ⟨c, v⟩ := q
    simp only [Memory.write, Memory.cons] at hp
    split at hp
    · split at hp
      · exact .inl hp
      · next h => exact (List.mem_cons.1 hp).elim (fun e => .inr ⟨e, h⟩) .inl
    · split at hp
      · split at hp
        · exact .inl (List.mem_cons_of_mem _ hp)
        · next h => exact (List.mem_cons.1 hp).elim (fun e => .inr ⟨e, h⟩) fun h => .inl (List.mem_cons_of_mem _ h)
      · rcases List.mem_cons.1 hp with rfl | hp
        · exact .inl (by simp)
        · exact (ih hp).imp (List.mem_cons_of_mem _) id

/-- Every write inside the address space keeps the canonical form. -/
theorem Memory.write_wf {m : Memory} (hm : m.wf bg) {a : Nat} (ha : a < Config.memSize) (b : Byte) :
    (m.write bg a b).wf bg := by
  refine ⟨?_, fun p hp => ?_⟩
  · have hs := hm.1
    clear hm
    induction m with
    | nil => unfold Memory.write Memory.cons; split <;> simp
    | cons q rest ih =>
      obtain ⟨c, v⟩ := q
      have hq := List.pairwise_cons.1 hs
      simp only [Memory.write, Memory.cons]
      split
      · next hlt =>
        split
        · exact hs
        · refine List.pairwise_cons.2 ⟨fun p hp => ?_, hs⟩
          rcases List.mem_cons.1 hp with rfl | hp
          · exact hlt
          · exact Nat.lt_trans hlt (hq.1 p hp)
      · split
        · next heq =>
          subst heq
          split
          · exact hq.2
          · exact List.pairwise_cons.2 ⟨hq.1, hq.2⟩
        · next h1 h2 =>
          refine List.pairwise_cons.2 ⟨fun p hp => ?_, ih hq.2⟩
          rcases Memory.mem_write hp with hp | ⟨rfl, -⟩
          · exact hq.1 p hp
          · simp only; omega
  · rcases Memory.mem_write hp with hp | ⟨rfl, hb⟩
    · exact hm.2 p hp
    · exact ⟨ha, hb⟩

theorem Memory.nil_wf : Memory.wf bg [] := ⟨.nil, fun _ h => absurd h List.not_mem_nil⟩

/-- Equal memories are equal lists: two canonical lists that read the same everywhere are the same. -/
theorem Memory.eq_of_read_eq {m m' : Memory} (hm : m.wf bg) (hm' : m'.wf bg)
    (h : ∀ a, m.read bg a = m'.read bg a) : m = m' := by
  induction m generalizing m' with
  | nil =>
    cases m' with
    | nil => rfl
    | cons q rest' =>
      have := h q.1
      simp only [Memory.read, if_true] at this
      exact absurd this.symm (hm'.2 q (by simp)).2
  | cons p rest ih =>
    have hp := List.pairwise_cons.1 hm.1
    cases m' with
    | nil =>
      have := h p.1
      simp only [Memory.read, if_true] at this
      exact absurd this (hm.2 p (by simp)).2
    | cons q rest' =>
      have hq := List.pairwise_cons.1 hm'.1
      have hne : ∀ (r : Host.Cell) (m : Memory), (∀ p ∈ m, r.1 < p.1) → m.read bg r.1 = bg r.1 := fun r m hr =>
        Memory.read_unlisted fun p hp => Nat.ne_of_lt (hr p hp)
      have hpq : p.1 = q.1 := by
        by_contra hc
        rcases Nat.lt_or_gt_of_ne hc with hlt | hlt
        · have e := h p.1
          rw [hne p (q :: rest') (by
            intro r hr
            rcases List.mem_cons.1 hr with rfl | hr
            · exact hlt
            · exact Nat.lt_trans hlt (hq.1 r hr))] at e
          simp only [Memory.read, if_true] at e
          exact (hm.2 p (by simp)).2 e
        · have e := h q.1
          rw [hne q (p :: rest) (by
            intro r hr
            rcases List.mem_cons.1 hr with rfl | hr
            · exact hlt
            · exact Nat.lt_trans hlt (hp.1 r hr))] at e
          simp only [Memory.read, if_true] at e
          exact (hm'.2 q (by simp)).2 e.symm
      have hpq2 : p.2 = q.2 := by
        have e := h p.1
        simp only [Memory.read, if_true, hpq] at e
        exact e
      have hpe : p = q := Prod.ext hpq hpq2
      subst hpe
      congr 1
      refine ih ⟨hp.2, fun r hr => hm.2 r (by simp [hr])⟩ ⟨hq.2, fun r hr => hm'.2 r (by simp [hr])⟩ fun a => ?_
      by_cases ha : a = p.1
      · subst ha
        rw [hne p rest hp.1, hne p rest' hq.1]
      · have e := h a
        simp only [Memory.read, ha, if_false] at e
        exact e

end Sys2Proof.Machine
end

