-- ==== Sys2Proof/Laws/State.lean ====
section
/-! SUPPORT. One lemma per field per update of the state: what each named operation leaves alone, and what it writes. -/

namespace Sys2Proof.Machine

@[ext] theorem State.ext_fields {s t : State} (hv : s.v = t.v) (hpc : s.pc = t.pc) (hi : s.i = t.i)
    (hstack : s.stack = t.stack) (hsp : s.sp = t.sp) (hdt : s.dt = t.dt) (hst : s.st = t.st) (hmem : s.mem = t.mem)
    (hfb : s.fb = t.fb) (hdirty : s.dirty = t.dirty) (hkey : s.key = t.key) (hrun : s.run = t.run)
    (hfault : s.fault = t.fault) (hdraws : s.draws = t.draws) (hbeeps : s.beeps = t.beeps) (hcfg : s.cfg = t.cfg) :
    s = t := by
  cases s; cases t; simp_all

/-! ## `setReg` -/

@[simp] theorem State.setReg_pc (s : State) (x : RegIdx) (b : Byte) : (s.setReg x b).pc = s.pc := rfl
@[simp] theorem State.setReg_i (s : State) (x : RegIdx) (b : Byte) : (s.setReg x b).i = s.i := rfl
@[simp] theorem State.setReg_stack (s : State) (x : RegIdx) (b : Byte) : (s.setReg x b).stack = s.stack := rfl
@[simp] theorem State.setReg_sp (s : State) (x : RegIdx) (b : Byte) : (s.setReg x b).sp = s.sp := rfl
@[simp] theorem State.setReg_dt (s : State) (x : RegIdx) (b : Byte) : (s.setReg x b).dt = s.dt := rfl
@[simp] theorem State.setReg_st (s : State) (x : RegIdx) (b : Byte) : (s.setReg x b).st = s.st := rfl
@[simp] theorem State.setReg_mem (s : State) (x : RegIdx) (b : Byte) : (s.setReg x b).mem = s.mem := rfl
@[simp] theorem State.setReg_fb (s : State) (x : RegIdx) (b : Byte) : (s.setReg x b).fb = s.fb := rfl
@[simp] theorem State.setReg_dirty (s : State) (x : RegIdx) (b : Byte) : (s.setReg x b).dirty = s.dirty := rfl
@[simp] theorem State.setReg_key (s : State) (x : RegIdx) (b : Byte) : (s.setReg x b).key = s.key := rfl
@[simp] theorem State.setReg_run (s : State) (x : RegIdx) (b : Byte) : (s.setReg x b).run = s.run := rfl
@[simp] theorem State.setReg_fault (s : State) (x : RegIdx) (b : Byte) : (s.setReg x b).fault = s.fault := rfl
@[simp] theorem State.setReg_draws (s : State) (x : RegIdx) (b : Byte) : (s.setReg x b).draws = s.draws := rfl
@[simp] theorem State.setReg_beeps (s : State) (x : RegIdx) (b : Byte) : (s.setReg x b).beeps = s.beeps := rfl
@[simp] theorem State.setReg_cfg (s : State) (x : RegIdx) (b : Byte) : (s.setReg x b).cfg = s.cfg := rfl
@[simp] theorem State.setReg_v (s : State) (x : RegIdx) (b : Byte) : (s.setReg x b).v = s.v.set x.val b x.isLt := rfl

/-! ## `setFlag` -/

@[simp] theorem State.setFlag_pc (s : State) (f : Bool) : (s.setFlag f).pc = s.pc := rfl
@[simp] theorem State.setFlag_i (s : State) (f : Bool) : (s.setFlag f).i = s.i := rfl
@[simp] theorem State.setFlag_stack (s : State) (f : Bool) : (s.setFlag f).stack = s.stack := rfl
@[simp] theorem State.setFlag_sp (s : State) (f : Bool) : (s.setFlag f).sp = s.sp := rfl
@[simp] theorem State.setFlag_dt (s : State) (f : Bool) : (s.setFlag f).dt = s.dt := rfl
@[simp] theorem State.setFlag_st (s : State) (f : Bool) : (s.setFlag f).st = s.st := rfl
@[simp] theorem State.setFlag_mem (s : State) (f : Bool) : (s.setFlag f).mem = s.mem := rfl
@[simp] theorem State.setFlag_fb (s : State) (f : Bool) : (s.setFlag f).fb = s.fb := rfl
@[simp] theorem State.setFlag_dirty (s : State) (f : Bool) : (s.setFlag f).dirty = s.dirty := rfl
@[simp] theorem State.setFlag_key (s : State) (f : Bool) : (s.setFlag f).key = s.key := rfl
@[simp] theorem State.setFlag_run (s : State) (f : Bool) : (s.setFlag f).run = s.run := rfl
@[simp] theorem State.setFlag_fault (s : State) (f : Bool) : (s.setFlag f).fault = s.fault := rfl
@[simp] theorem State.setFlag_draws (s : State) (f : Bool) : (s.setFlag f).draws = s.draws := rfl
@[simp] theorem State.setFlag_beeps (s : State) (f : Bool) : (s.setFlag f).beeps = s.beeps := rfl
@[simp] theorem State.setFlag_cfg (s : State) (f : Bool) : (s.setFlag f).cfg = s.cfg := rfl
@[simp] theorem State.setFlag_v (s : State) (f : Bool) : (s.setFlag f).v = s.v.set 15 (flagByte f) := rfl

/-! ## `poke` -/

@[simp] theorem State.poke_v (s : State) (a : Nat) (b : Byte) : (s.poke a b).v = s.v := rfl
@[simp] theorem State.poke_pc (s : State) (a : Nat) (b : Byte) : (s.poke a b).pc = s.pc := rfl
@[simp] theorem State.poke_i (s : State) (a : Nat) (b : Byte) : (s.poke a b).i = s.i := rfl
@[simp] theorem State.poke_stack (s : State) (a : Nat) (b : Byte) : (s.poke a b).stack = s.stack := rfl
@[simp] theorem State.poke_sp (s : State) (a : Nat) (b : Byte) : (s.poke a b).sp = s.sp := rfl
@[simp] theorem State.poke_dt (s : State) (a : Nat) (b : Byte) : (s.poke a b).dt = s.dt := rfl
@[simp] theorem State.poke_st (s : State) (a : Nat) (b : Byte) : (s.poke a b).st = s.st := rfl
@[simp] theorem State.poke_fb (s : State) (a : Nat) (b : Byte) : (s.poke a b).fb = s.fb := rfl
@[simp] theorem State.poke_dirty (s : State) (a : Nat) (b : Byte) : (s.poke a b).dirty = s.dirty := rfl
@[simp] theorem State.poke_key (s : State) (a : Nat) (b : Byte) : (s.poke a b).key = s.key := rfl
@[simp] theorem State.poke_run (s : State) (a : Nat) (b : Byte) : (s.poke a b).run = s.run := rfl
@[simp] theorem State.poke_fault (s : State) (a : Nat) (b : Byte) : (s.poke a b).fault = s.fault := rfl
@[simp] theorem State.poke_draws (s : State) (a : Nat) (b : Byte) : (s.poke a b).draws = s.draws := rfl
@[simp] theorem State.poke_beeps (s : State) (a : Nat) (b : Byte) : (s.poke a b).beeps = s.beeps := rfl
@[simp] theorem State.poke_cfg (s : State) (a : Nat) (b : Byte) : (s.poke a b).cfg = s.cfg := rfl
@[simp] theorem State.poke_mem (s : State) (a : Nat) (b : Byte) : (s.poke a b).mem = s.mem.write s.cfg.resetByte a b := rfl

/-! ## `advanceI` -/

@[simp] theorem State.advanceI_v (s : State) (x : RegIdx) : (s.advanceI x).v = s.v := rfl
@[simp] theorem State.advanceI_pc (s : State) (x : RegIdx) : (s.advanceI x).pc = s.pc := rfl
@[simp] theorem State.advanceI_stack (s : State) (x : RegIdx) : (s.advanceI x).stack = s.stack := rfl
@[simp] theorem State.advanceI_sp (s : State) (x : RegIdx) : (s.advanceI x).sp = s.sp := rfl
@[simp] theorem State.advanceI_dt (s : State) (x : RegIdx) : (s.advanceI x).dt = s.dt := rfl
@[simp] theorem State.advanceI_st (s : State) (x : RegIdx) : (s.advanceI x).st = s.st := rfl
@[simp] theorem State.advanceI_mem (s : State) (x : RegIdx) : (s.advanceI x).mem = s.mem := rfl
@[simp] theorem State.advanceI_fb (s : State) (x : RegIdx) : (s.advanceI x).fb = s.fb := rfl
@[simp] theorem State.advanceI_dirty (s : State) (x : RegIdx) : (s.advanceI x).dirty = s.dirty := rfl
@[simp] theorem State.advanceI_key (s : State) (x : RegIdx) : (s.advanceI x).key = s.key := rfl
@[simp] theorem State.advanceI_run (s : State) (x : RegIdx) : (s.advanceI x).run = s.run := rfl
@[simp] theorem State.advanceI_fault (s : State) (x : RegIdx) : (s.advanceI x).fault = s.fault := rfl
@[simp] theorem State.advanceI_draws (s : State) (x : RegIdx) : (s.advanceI x).draws = s.draws := rfl
@[simp] theorem State.advanceI_beeps (s : State) (x : RegIdx) : (s.advanceI x).beeps = s.beeps := rfl
@[simp] theorem State.advanceI_cfg (s : State) (x : RegIdx) : (s.advanceI x).cfg = s.cfg := rfl
@[simp] theorem State.advanceI_i (s : State) (x : RegIdx) : (s.advanceI x).i = s.i + BitVec.ofNat 16 (blockSize x) := rfl

/-! ## `halt` -/

@[simp] theorem State.halt_v (s : State) (c : Condition) (o : Option Word) (a : Option Nat) : (s.halt c o a).v = s.v := rfl
@[simp] theorem State.halt_pc (s : State) (c : Condition) (o : Option Word) (a : Option Nat) : (s.halt c o a).pc = s.pc := rfl
@[simp] theorem State.halt_i (s : State) (c : Condition) (o : Option Word) (a : Option Nat) : (s.halt c o a).i = s.i := rfl
@[simp] theorem State.halt_stack (s : State) (c : Condition) (o : Option Word) (a : Option Nat) : (s.halt c o a).stack = s.stack := rfl
@[simp] theorem State.halt_sp (s : State) (c : Condition) (o : Option Word) (a : Option Nat) : (s.halt c o a).sp = s.sp := rfl
@[simp] theorem State.halt_dt (s : State) (c : Condition) (o : Option Word) (a : Option Nat) : (s.halt c o a).dt = s.dt := rfl
@[simp] theorem State.halt_st (s : State) (c : Condition) (o : Option Word) (a : Option Nat) : (s.halt c o a).st = s.st := rfl
@[simp] theorem State.halt_mem (s : State) (c : Condition) (o : Option Word) (a : Option Nat) : (s.halt c o a).mem = s.mem := rfl
@[simp] theorem State.halt_fb (s : State) (c : Condition) (o : Option Word) (a : Option Nat) : (s.halt c o a).fb = s.fb := rfl
@[simp] theorem State.halt_dirty (s : State) (c : Condition) (o : Option Word) (a : Option Nat) : (s.halt c o a).dirty = s.dirty := rfl
@[simp] theorem State.halt_key (s : State) (c : Condition) (o : Option Word) (a : Option Nat) : (s.halt c o a).key = s.key := rfl
@[simp] theorem State.halt_draws (s : State) (c : Condition) (o : Option Word) (a : Option Nat) : (s.halt c o a).draws = s.draws := rfl
@[simp] theorem State.halt_beeps (s : State) (c : Condition) (o : Option Word) (a : Option Nat) : (s.halt c o a).beeps = s.beeps := rfl
@[simp] theorem State.halt_cfg (s : State) (c : Condition) (o : Option Word) (a : Option Nat) : (s.halt c o a).cfg = s.cfg := rfl
@[simp] theorem State.halt_run (s : State) (c : Condition) (o : Option Word) (a : Option Nat) : (s.halt c o a).run = .halted := rfl
@[simp] theorem State.halt_fault (s : State) (c : Condition) (o : Option Word) (a : Option Nat) : (s.halt c o a).fault = some ⟨c, s.pc, o, a⟩ := rfl

/-! ## `fetchFault` -/

@[simp] theorem State.fetchFault_v (s : State) (a : Nat) : (s.fetchFault a).v = s.v := rfl
@[simp] theorem State.fetchFault_pc (s : State) (a : Nat) : (s.fetchFault a).pc = s.pc := rfl
@[simp] theorem State.fetchFault_i (s : State) (a : Nat) : (s.fetchFault a).i = s.i := rfl
@[simp] theorem State.fetchFault_stack (s : State) (a : Nat) : (s.fetchFault a).stack = s.stack := rfl
@[simp] theorem State.fetchFault_sp (s : State) (a : Nat) : (s.fetchFault a).sp = s.sp := rfl
@[simp] theorem State.fetchFault_dt (s : State) (a : Nat) : (s.fetchFault a).dt = s.dt := rfl
@[simp] theorem State.fetchFault_st (s : State) (a : Nat) : (s.fetchFault a).st = s.st := rfl
@[simp] theorem State.fetchFault_mem (s : State) (a : Nat) : (s.fetchFault a).mem = s.mem := rfl
@[simp] theorem State.fetchFault_fb (s : State) (a : Nat) : (s.fetchFault a).fb = s.fb := rfl
@[simp] theorem State.fetchFault_dirty (s : State) (a : Nat) : (s.fetchFault a).dirty = s.dirty := rfl
@[simp] theorem State.fetchFault_key (s : State) (a : Nat) : (s.fetchFault a).key = s.key := rfl
@[simp] theorem State.fetchFault_draws (s : State) (a : Nat) : (s.fetchFault a).draws = s.draws := rfl
@[simp] theorem State.fetchFault_beeps (s : State) (a : Nat) : (s.fetchFault a).beeps = s.beeps := rfl
@[simp] theorem State.fetchFault_cfg (s : State) (a : Nat) : (s.fetchFault a).cfg = s.cfg := rfl
@[simp] theorem State.fetchFault_run (s : State) (a : Nat) : (s.fetchFault a).run = .halted := rfl
@[simp] theorem State.fetchFault_fault (s : State) (a : Nat) : (s.fetchFault a).fault = some ⟨.outOfBoundsAccess, s.pc, none, some a⟩ := rfl

/-! ## `illegalWord` -/

@[simp] theorem State.illegalWord_v (s : State) (op : Word) : (s.illegalWord op).v = s.v := rfl
@[simp] theorem State.illegalWord_pc (s : State) (op : Word) : (s.illegalWord op).pc = s.pc := rfl
@[simp] theorem State.illegalWord_i (s : State) (op : Word) : (s.illegalWord op).i = s.i := rfl
@[simp] theorem State.illegalWord_stack (s : State) (op : Word) : (s.illegalWord op).stack = s.stack := rfl
@[simp] theorem State.illegalWord_sp (s : State) (op : Word) : (s.illegalWord op).sp = s.sp := rfl
@[simp] theorem State.illegalWord_dt (s : State) (op : Word) : (s.illegalWord op).dt = s.dt := rfl
@[simp] theorem State.illegalWord_st (s : State) (op : Word) : (s.illegalWord op).st = s.st := rfl
@[simp] theorem State.illegalWord_mem (s : State) (op : Word) : (s.illegalWord op).mem = s.mem := rfl
@[simp] theorem State.illegalWord_fb (s : State) (op : Word) : (s.illegalWord op).fb = s.fb := rfl
@[simp] theorem State.illegalWord_dirty (s : State) (op : Word) : (s.illegalWord op).dirty = s.dirty := rfl
@[simp] theorem State.illegalWord_key (s : State) (op : Word) : (s.illegalWord op).key = s.key := rfl
@[simp] theorem State.illegalWord_draws (s : State) (op : Word) : (s.illegalWord op).draws = s.draws := rfl
@[simp] theorem State.illegalWord_beeps (s : State) (op : Word) : (s.illegalWord op).beeps = s.beeps := rfl
@[simp] theorem State.illegalWord_cfg (s : State) (op : Word) : (s.illegalWord op).cfg = s.cfg := rfl
@[simp] theorem State.illegalWord_run (s : State) (op : Word) : (s.illegalWord op).run = .halted := rfl
@[simp] theorem State.illegalWord_fault (s : State) (op : Word) : (s.illegalWord op).fault = some ⟨.unrecognizedInstruction, s.pc, some op, none⟩ := rfl

/-! ## `timerTick` -/

@[simp] theorem State.timerTick_v (s : State) : (s.timerTick).v = s.v := rfl
@[simp] theorem State.timerTick_pc (s : State) : (s.timerTick).pc = s.pc := rfl
@[simp] theorem State.timerTick_i (s : State) : (s.timerTick).i = s.i := rfl
@[simp] theorem State.timerTick_stack (s : State) : (s.timerTick).stack = s.stack := rfl
@[simp] theorem State.timerTick_sp (s : State) : (s.timerTick).sp = s.sp := rfl
@[simp] theorem State.timerTick_mem (s : State) : (s.timerTick).mem = s.mem := rfl
@[simp] theorem State.timerTick_fb (s : State) : (s.timerTick).fb = s.fb := rfl
@[simp] theorem State.timerTick_dirty (s : State) : (s.timerTick).dirty = s.dirty := rfl
@[simp] theorem State.timerTick_key (s : State) : (s.timerTick).key = s.key := rfl
@[simp] theorem State.timerTick_run (s : State) : (s.timerTick).run = s.run := rfl
@[simp] theorem State.timerTick_fault (s : State) : (s.timerTick).fault = s.fault := rfl
@[simp] theorem State.timerTick_draws (s : State) : (s.timerTick).draws = s.draws := rfl
@[simp] theorem State.timerTick_cfg (s : State) : (s.timerTick).cfg = s.cfg := rfl
@[simp] theorem State.timerTick_dt (s : State) : (s.timerTick).dt = tickDown s.dt := rfl
@[simp] theorem State.timerTick_st (s : State) : (s.timerTick).st = tickDown s.st := rfl
@[simp] theorem State.timerTick_beeps (s : State) : (s.timerTick).beeps = s.beeps + if s.st = 1 then 1 else 0 := rfl

/-! ## `keySet` -/

@[simp] theorem State.keySet_v (s : State) (k : RegIdx) (b : Bool) : (s.keySet k b).v = s.v := rfl
@[simp] theorem State.keySet_pc (s : State) (k : RegIdx) (b : Bool) : (s.keySet k b).pc = s.pc := rfl
@[simp] theorem State.keySet_i (s : State) (k : RegIdx) (b : Bool) : (s.keySet k b).i = s.i := rfl
@[simp] theorem State.keySet_stack (s : State) (k : RegIdx) (b : Bool) : (s.keySet k b).stack = s.stack := rfl
@[simp] theorem State.keySet_sp (s : State) (k : RegIdx) (b : Bool) : (s.keySet k b).sp = s.sp := rfl
@[simp] theorem State.keySet_dt (s : State) (k : RegIdx) (b : Bool) : (s.keySet k b).dt = s.dt := rfl
@[simp] theorem State.keySet_st (s : State) (k : RegIdx) (b : Bool) : (s.keySet k b).st = s.st := rfl
@[simp] theorem State.keySet_mem (s : State) (k : RegIdx) (b : Bool) : (s.keySet k b).mem = s.mem := rfl
@[simp] theorem State.keySet_fb (s : State) (k : RegIdx) (b : Bool) : (s.keySet k b).fb = s.fb := rfl
@[simp] theorem State.keySet_dirty (s : State) (k : RegIdx) (b : Bool) : (s.keySet k b).dirty = s.dirty := rfl
@[simp] theorem State.keySet_run (s : State) (k : RegIdx) (b : Bool) : (s.keySet k b).run = s.run := rfl
@[simp] theorem State.keySet_fault (s : State) (k : RegIdx) (b : Bool) : (s.keySet k b).fault = s.fault := rfl
@[simp] theorem State.keySet_draws (s : State) (k : RegIdx) (b : Bool) : (s.keySet k b).draws = s.draws := rfl
@[simp] theorem State.keySet_beeps (s : State) (k : RegIdx) (b : Bool) : (s.keySet k b).beeps = s.beeps := rfl
@[simp] theorem State.keySet_cfg (s : State) (k : RegIdx) (b : Bool) : (s.keySet k b).cfg = s.cfg := rfl
@[simp] theorem State.keySet_key (s : State) (k : RegIdx) (b : Bool) : (s.keySet k b).key = s.key.set k.val b k.isLt := rfl

/-! ## `dirtyClear` -/

@[simp] theorem State.dirtyClear_v (s : State) : (s.dirtyClear).v = s.v := rfl
@[simp] theorem State.dirtyClear_pc (s : State) : (s.dirtyClear).pc = s.pc := rfl
@[simp] theorem State.dirtyClear_i (s : State) : (s.dirtyClear).i = s.i := rfl
@[simp] theorem State.dirtyClear_stack (s : State) : (s.dirtyClear).stack = s.stack := rfl
@[simp] theorem State.dirtyClear_sp (s : State) : (s.dirtyClear).sp = s.sp := rfl
@[simp] theorem State.dirtyClear_dt (s : State) : (s.dirtyClear).dt = s.dt := rfl
@[simp] theorem State.dirtyClear_st (s : State) : (s.dirtyClear).st = s.st := rfl
@[simp] theorem State.dirtyClear_mem (s : State) : (s.dirtyClear).mem = s.mem := rfl
@[simp] theorem State.dirtyClear_fb (s : State) : (s.dirtyClear).fb = s.fb := rfl
@[simp] theorem State.dirtyClear_key (s : State) : (s.dirtyClear).key = s.key := rfl
@[simp] theorem State.dirtyClear_run (s : State) : (s.dirtyClear).run = s.run := rfl
@[simp] theorem State.dirtyClear_fault (s : State) : (s.dirtyClear).fault = s.fault := rfl
@[simp] theorem State.dirtyClear_draws (s : State) : (s.dirtyClear).draws = s.draws := rfl
@[simp] theorem State.dirtyClear_beeps (s : State) : (s.dirtyClear).beeps = s.beeps := rfl
@[simp] theorem State.dirtyClear_cfg (s : State) : (s.dirtyClear).cfg = s.cfg := rfl
@[simp] theorem State.dirtyClear_dirty (s : State) : (s.dirtyClear).dirty = false := rfl

/-! ## `applyOutcome`: only PC -/

@[simp] theorem State.applyOutcome_v (s : State) (o : PcOutcome) : (s.applyOutcome o).v = s.v := by cases o <;> rfl
@[simp] theorem State.applyOutcome_i (s : State) (o : PcOutcome) : (s.applyOutcome o).i = s.i := by cases o <;> rfl
@[simp] theorem State.applyOutcome_stack (s : State) (o : PcOutcome) : (s.applyOutcome o).stack = s.stack := by cases o <;> rfl
@[simp] theorem State.applyOutcome_sp (s : State) (o : PcOutcome) : (s.applyOutcome o).sp = s.sp := by cases o <;> rfl
@[simp] theorem State.applyOutcome_dt (s : State) (o : PcOutcome) : (s.applyOutcome o).dt = s.dt := by cases o <;> rfl
@[simp] theorem State.applyOutcome_st (s : State) (o : PcOutcome) : (s.applyOutcome o).st = s.st := by cases o <;> rfl
@[simp] theorem State.applyOutcome_mem (s : State) (o : PcOutcome) : (s.applyOutcome o).mem = s.mem := by cases o <;> rfl
@[simp] theorem State.applyOutcome_fb (s : State) (o : PcOutcome) : (s.applyOutcome o).fb = s.fb := by cases o <;> rfl
@[simp] theorem State.applyOutcome_dirty (s : State) (o : PcOutcome) : (s.applyOutcome o).dirty = s.dirty := by cases o <;> rfl
@[simp] theorem State.applyOutcome_key (s : State) (o : PcOutcome) : (s.applyOutcome o).key = s.key := by cases o <;> rfl
@[simp] theorem State.applyOutcome_run (s : State) (o : PcOutcome) : (s.applyOutcome o).run = s.run := by cases o <;> rfl
@[simp] theorem State.applyOutcome_fault (s : State) (o : PcOutcome) : (s.applyOutcome o).fault = s.fault := by cases o <;> rfl
@[simp] theorem State.applyOutcome_draws (s : State) (o : PcOutcome) : (s.applyOutcome o).draws = s.draws := by cases o <;> rfl
@[simp] theorem State.applyOutcome_beeps (s : State) (o : PcOutcome) : (s.applyOutcome o).beeps = s.beeps := by cases o <;> rfl
@[simp] theorem State.applyOutcome_cfg (s : State) (o : PcOutcome) : (s.applyOutcome o).cfg = s.cfg := by cases o <;> rfl
@[simp] theorem State.applyOutcome_next_pc (s : State) : (s.applyOutcome .next).pc = s.pc + 2 := rfl
@[simp] theorem State.applyOutcome_skip_pc (s : State) : (s.applyOutcome .skip).pc = s.pc + 4 := rfl
@[simp] theorem State.applyOutcome_goto_pc (s : State) (t : Word) : (s.applyOutcome (.goto t)).pc = t := rfl
@[simp] theorem State.applyOutcome_hold (s : State) : s.applyOutcome .hold = s := rfl

/-! ## `setRegs` and `pokes`: registers only, memory only -/

@[simp] theorem State.setRegs_pc (bs : List Byte) : ∀ (s : State) (k : Nat), (s.setRegs k bs).pc = s.pc := by
  induction bs with
  | nil => intro _ _; rfl
  | cons b bs ih => intro s k; simp [State.setRegs, ih]
@[simp] theorem State.setRegs_i (bs : List Byte) : ∀ (s : State) (k : Nat), (s.setRegs k bs).i = s.i := by
  induction bs with
  | nil => intro _ _; rfl
  | cons b bs ih => intro s k; simp [State.setRegs, ih]
@[simp] theorem State.setRegs_stack (bs : List Byte) : ∀ (s : State) (k : Nat), (s.setRegs k bs).stack = s.stack := by
  induction bs with
  | nil => intro _ _; rfl
  | cons b bs ih => intro s k; simp [State.setRegs, ih]
@[simp] theorem State.setRegs_sp (bs : List Byte) : ∀ (s : State) (k : Nat), (s.setRegs k bs).sp = s.sp := by
  induction bs with
  | nil => intro _ _; rfl
  | cons b bs ih => intro s k; simp [State.setRegs, ih]
@[simp] theorem State.setRegs_dt (bs : List Byte) : ∀ (s : State) (k : Nat), (s.setRegs k bs).dt = s.dt := by
  induction bs with
  | nil => intro _ _; rfl
  | cons b bs ih => intro s k; simp [State.setRegs, ih]
@[simp] theorem State.setRegs_st (bs : List Byte) : ∀ (s : State) (k : Nat), (s.setRegs k bs).st = s.st := by
  induction bs with
  | nil => intro _ _; rfl
  | cons b bs ih => intro s k; simp [State.setRegs, ih]
@[simp] theorem State.setRegs_mem (bs : List Byte) : ∀ (s : State) (k : Nat), (s.setRegs k bs).mem = s.mem := by
  induction bs with
  | nil => intro _ _; rfl
  | cons b bs ih => intro s k; simp [State.setRegs, ih]
@[simp] theorem State.setRegs_fb (bs : List Byte) : ∀ (s : State) (k : Nat), (s.setRegs k bs).fb = s.fb := by
  induction bs with
  | nil => intro _ _; rfl
  | cons b bs ih => intro s k; simp [State.setRegs, ih]
@[simp] theorem State.setRegs_dirty (bs : List Byte) : ∀ (s : State) (k : Nat), (s.setRegs k bs).dirty = s.dirty := by
  induction bs with
  | nil => intro _ _; rfl
  | cons b bs ih => intro s k; simp [State.setRegs, ih]
@[simp] theorem State.setRegs_key (bs : List Byte) : ∀ (s : State) (k : Nat), (s.setRegs k bs).key = s.key := by
  induction bs with
  | nil => intro _ _; rfl
  | cons b bs ih => intro s k; simp [State.setRegs, ih]
@[simp] theorem State.setRegs_run (bs : List Byte) : ∀ (s : State) (k : Nat), (s.setRegs k bs).run = s.run := by
  induction bs with
  | nil => intro _ _; rfl
  | cons b bs ih => intro s k; simp [State.setRegs, ih]
@[simp] theorem State.setRegs_fault (bs : List Byte) : ∀ (s : State) (k : Nat), (s.setRegs k bs).fault = s.fault := by
  induction bs with
  | nil => intro _ _; rfl
  | cons b bs ih => intro s k; simp [State.setRegs, ih]
@[simp] theorem State.setRegs_draws (bs : List Byte) : ∀ (s : State) (k : Nat), (s.setRegs k bs).draws = s.draws := by
  induction bs with
  | nil => intro _ _; rfl
  | cons b bs ih => intro s k; simp [State.setRegs, ih]
@[simp] theorem State.setRegs_beeps (bs : List Byte) : ∀ (s : State) (k : Nat), (s.setRegs k bs).beeps = s.beeps := by
  induction bs with
  | nil => intro _ _; rfl
  | cons b bs ih => intro s k; simp [State.setRegs, ih]
@[simp] theorem State.setRegs_cfg (bs : List Byte) : ∀ (s : State) (k : Nat), (s.setRegs k bs).cfg = s.cfg := by
  induction bs with
  | nil => intro _ _; rfl
  | cons b bs ih => intro s k; simp [State.setRegs, ih]
@[simp] theorem State.pokes_v (bs : List Byte) : ∀ (s : State) (a : Nat), (s.pokes a bs).v = s.v := by
  induction bs with
  | nil => intro _ _; rfl
  | cons b bs ih => intro s a; simp [State.pokes, ih]
@[simp] theorem State.pokes_pc (bs : List Byte) : ∀ (s : State) (a : Nat), (s.pokes a bs).pc = s.pc := by
  induction bs with
  | nil => intro _ _; rfl
  | cons b bs ih => intro s a; simp [State.pokes, ih]
@[simp] theorem State.pokes_i (bs : List Byte) : ∀ (s : State) (a : Nat), (s.pokes a bs).i = s.i := by
  induction bs with
  | nil => intro _ _; rfl
  | cons b bs ih => intro s a; simp [State.pokes, ih]
@[simp] theorem State.pokes_stack (bs : List Byte) : ∀ (s : State) (a : Nat), (s.pokes a bs).stack = s.stack := by
  induction bs with
  | nil => intro _ _; rfl
  | cons b bs ih => intro s a; simp [State.pokes, ih]
@[simp] theorem State.pokes_sp (bs : List Byte) : ∀ (s : State) (a : Nat), (s.pokes a bs).sp = s.sp := by
  induction bs with
  | nil => intro _ _; rfl
  | cons b bs ih => intro s a; simp [State.pokes, ih]
@[simp] theorem State.pokes_dt (bs : List Byte) : ∀ (s : State) (a : Nat), (s.pokes a bs).dt = s.dt := by
  induction bs with
  | nil => intro _ _; rfl
  | cons b bs ih => intro s a; simp [State.pokes, ih]
@[simp] theorem State.pokes_st (bs : List Byte) : ∀ (s : State) (a : Nat), (s.pokes a bs).st = s.st := by
  induction bs with
  | nil => intro _ _; rfl
  | cons b bs ih => intro s a; simp [State.pokes, ih]
@[simp] theorem State.pokes_fb (bs : List Byte) : ∀ (s : State) (a : Nat), (s.pokes a bs).fb = s.fb := by
  induction bs with
  | nil => intro _ _; rfl
  | cons b bs ih => intro s a; simp [State.pokes, ih]
@[simp] theorem State.pokes_dirty (bs : List Byte) : ∀ (s : State) (a : Nat), (s.pokes a bs).dirty = s.dirty := by
  induction bs with
  | nil => intro _ _; rfl
  | cons b bs ih => intro s a; simp [State.pokes, ih]
@[simp] theorem State.pokes_key (bs : List Byte) : ∀ (s : State) (a : Nat), (s.pokes a bs).key = s.key := by
  induction bs with
  | nil => intro _ _; rfl
  | cons b bs ih => intro s a; simp [State.pokes, ih]
@[simp] theorem State.pokes_run (bs : List Byte) : ∀ (s : State) (a : Nat), (s.pokes a bs).run = s.run := by
  induction bs with
  | nil => intro _ _; rfl
  | cons b bs ih => intro s a; simp [State.pokes, ih]
@[simp] theorem State.pokes_fault (bs : List Byte) : ∀ (s : State) (a : Nat), (s.pokes a bs).fault = s.fault := by
  induction bs with
  | nil => intro _ _; rfl
  | cons b bs ih => intro s a; simp [State.pokes, ih]
@[simp] theorem State.pokes_draws (bs : List Byte) : ∀ (s : State) (a : Nat), (s.pokes a bs).draws = s.draws := by
  induction bs with
  | nil => intro _ _; rfl
  | cons b bs ih => intro s a; simp [State.pokes, ih]
@[simp] theorem State.pokes_beeps (bs : List Byte) : ∀ (s : State) (a : Nat), (s.pokes a bs).beeps = s.beeps := by
  induction bs with
  | nil => intro _ _; rfl
  | cons b bs ih => intro s a; simp [State.pokes, ih]
@[simp] theorem State.pokes_cfg (bs : List Byte) : ∀ (s : State) (a : Nat), (s.pokes a bs).cfg = s.cfg := by
  induction bs with
  | nil => intro _ _; rfl
  | cons b bs ih => intro s a; simp [State.pokes, ih]

end Sys2Proof.Machine
end

