-- ==== Sys2Proof/Laws/Ops.lean ====
section
/-! SUPPORT. One lemma per shared operation, saying once everything it can do. -/

namespace Sys2Proof.Machine

/-! ## Registers -/

theorem State.reg_congr {s t : State} (h : s.v = t.v) (x : RegIdx) : s.reg x = t.reg x := by
  simp only [State.reg, h]

theorem State.peek_congr {s t : State} (hm : s.mem = t.mem) (hc : s.cfg = t.cfg) (a : Nat) : s.peek a = t.peek a := by
  simp only [State.peek, hm, hc]

/-- What a register reads after a write to a register. -/
theorem State.reg_setReg (s : State) (x : RegIdx) (b : Byte) (y : RegIdx) :
    (s.setReg x b).reg y = if y = x then b else s.reg y := by
  simp only [State.reg, State.setReg, Fin.getElem_fin, Vector.getElem_set, Fin.val_inj, eq_comm]

theorem State.reg_setFlag (s : State) (f : Bool) (y : RegIdx) :
    (s.setFlag f).reg y = if y = vF then flagByte f else s.reg y := s.reg_setReg vF _ y

/-- Writing a register's own value changes nothing. -/
theorem State.setReg_self (s : State) (x : RegIdx) : s.setReg x (s.reg x) = s := by
  ext1 <;> simp [State.reg]

/-- What a register reads after the bytes `bs` are written to `V[k]` and the registers after it. -/
theorem State.reg_setRegs (bs : List Byte) : ∀ (s : State) (k : Nat), k + bs.length ≤ 16 → ∀ y : RegIdx,
    (s.setRegs k bs).reg y = if k ≤ y.val then bs.getD (y.val - k) (s.reg y) else s.reg y := by
  induction bs with
  | nil => intro s k _ y; simp [State.setRegs]
  | cons b bs ih =>
    intro s k hk y
    simp only [List.length_cons] at hk
    rw [State.setRegs, ih _ _ (by omega), State.reg_setReg]
    have hy : y = Fin.ofNat 16 k ↔ y.val = k := by
      rw [Fin.ext_iff, Fin.val_ofNat, Nat.mod_eq_of_lt (by omega)]
    simp only [hy]
    by_cases h1 : y.val = k
    · simp [h1]
    · by_cases h2 : k ≤ y.val
      · have e : y.val - k = (y.val - (k + 1)) + 1 := by omega
        simp [h1, h2, show k + 1 ≤ y.val by omega, e]
      · simp [h1, h2, show ¬ k + 1 ≤ y.val by omega]

theorem State.firstRegs_length (s : State) (x : RegIdx) : (s.firstRegs (blockSize x)).length = blockSize x := by
  have := x.isLt
  simp [State.firstRegs, blockSize]

theorem State.firstRegs_getElem (s : State) (n k : Nat) (h : k < (s.firstRegs n).length) (hk : k < 16) :
    (s.firstRegs n)[k] = s.reg ⟨k, hk⟩ := by
  simp [State.firstRegs, State.reg]

/-! ## Memory -/

theorem State.reset_canonical : Memory.wf State.reset.cfg.resetByte State.reset.mem := Memory.nil_wf

theorem State.poke_canonical {s : State} (hs : Memory.wf s.cfg.resetByte s.mem) {a : Nat} (ha : a < Config.memSize)
    (b : Byte) : Memory.wf (s.poke a b).cfg.resetByte (s.poke a b).mem := Memory.write_wf hs ha b

theorem State.pokes_canonical (bs : List Byte) : ∀ {s : State}, Memory.wf s.cfg.resetByte s.mem → ∀ {a : Nat},
    a + bs.length ≤ Config.memSize → Memory.wf (s.pokes a bs).cfg.resetByte (s.pokes a bs).mem := by
  induction bs with
  | nil => intro s hs a _; exact hs
  | cons b bs ih =>
    intro s hs a ha
    simp only [List.length_cons] at ha
    exact ih (State.poke_canonical hs (by omega) b) (by omega)

/-- A read after a write to the same address. -/
theorem State.peek_poke_same {s : State} (hs : Memory.wf s.cfg.resetByte s.mem) (a : Nat) (b : Byte) :
    (s.poke a b).peek a = b := Memory.read_write_same hs.1 a b

/-- A write leaves every other address alone. -/
theorem State.peek_poke_other (s : State) {a a' : Nat} (h : a' ≠ a) (b : Byte) : (s.poke a b).peek a' = s.peek a' :=
  Memory.read_write_other h s.mem b

/-- Writes leave every address outside their bytes alone. -/
theorem State.peek_pokes_other (bs : List Byte) : ∀ (s : State) (a c : Nat), c < a ∨ a + bs.length ≤ c →
    (s.pokes a bs).peek c = s.peek c := by
  induction bs with
  | nil => intro _ _ _ _; rfl
  | cons b bs ih =>
    intro s a c h
    simp only [List.length_cons] at h
    rw [State.pokes, ih _ _ _ (by omega), State.peek_poke_other s (by omega)]

/-- The k-th byte written is what its address reads as. -/
theorem State.peek_pokes_same (bs : List Byte) : ∀ (s : State), Memory.wf s.cfg.resetByte s.mem → ∀ (a : Nat),
    a + bs.length ≤ Config.memSize → ∀ (k : Nat) (h : k < bs.length), (s.pokes a bs).peek (a + k) = bs[k] := by
  induction bs with
  | nil => intro _ _ _ _ k h; simp at h
  | cons b bs ih =>
    intro s hs a ha k h
    simp only [List.length_cons] at ha h
    rw [State.pokes]
    cases k with
    | zero =>
      rw [State.peek_pokes_other bs _ _ _ (by omega)]
      exact State.peek_poke_same hs a b
    | succ k =>
      have e : a + (k + 1) = a + 1 + k := by omega
      rw [e, ih _ (State.poke_canonical hs (by omega) b) _ (by omega) k (by omega)]
      rfl

@[simp] theorem State.peeks_length (s : State) (a n : Nat) : (s.peeks a n).length = n := by simp [State.peeks]

theorem State.peeks_getElem (s : State) (a n k : Nat) (h : k < (s.peeks a n).length) :
    (s.peeks a n)[k] = s.peek (a + k) := by simp [State.peeks]

/-- The bounds check passes exactly when every address exists. -/
theorem firstOutOfBounds_eq_none {base n : Nat} : firstOutOfBounds base n = none ↔ n = 0 ∨ base + n ≤ 4096 := by
  simp only [firstOutOfBounds, List.find?_eq_none, List.mem_map, List.mem_range, decide_eq_true_eq, Config.memSize]
  constructor
  · intro h
    by_contra hc
    exact h (base + (n - 1)) ⟨n - 1, by omega, rfl⟩ (by omega)
  · rintro h _ ⟨k, hk, rfl⟩
    omega

/-- The bounds check answers the lowest of the addresses that do not exist. -/
theorem firstOutOfBounds_eq_some {base n a : Nat} :
    firstOutOfBounds base n = some a ↔ base ≤ a ∧ a < base + n ∧ 4096 ≤ a ∧ ∀ b, base ≤ b → b < a → b < 4096 := by
  have key : ∀ n, firstOutOfBounds base n = some a ↔
      base ≤ a ∧ a < base + n ∧ 4096 ≤ a ∧ ∀ b, base ≤ b → b < a → b < 4096 := by
    intro n
    induction n with
    | zero => simp [firstOutOfBounds]; omega
    | succ n ih =>
      have e : firstOutOfBounds base (n + 1) =
          (firstOutOfBounds base n).or (if 4096 ≤ base + n then some (base + n) else none) := by
        simp only [firstOutOfBounds, List.range_succ, List.map_append, List.find?_append, List.map_cons, List.map_nil,
          List.find?_cons, List.find?_nil, Config.memSize]
        by_cases h : 4096 ≤ base + n <;> simp [h]
      rw [e]
      rcases hf : firstOutOfBounds base n with _ | c
      · have hn := firstOutOfBounds_eq_none.1 hf
        simp only [Option.none_or]
        split
        · next h =>
          simp only [Option.some.injEq]
          constructor
          · rintro rfl
            refine ⟨by omega, by omega, h, fun b hb hb' => by omega⟩
          · rintro ⟨h1, h2, h3, h4⟩
            by_contra hne
            omega
        · next h =>
          simp only [reduceCtorEq, false_iff]
          rintro ⟨h1, h2, h3, h4⟩
          omega
      · have hc : base ≤ c ∧ c < base + n ∧ 4096 ≤ c := by
          have hm := List.find?_some hf
          have hmem := List.mem_of_find?_eq_some hf
          simp only [List.mem_map, List.mem_range, decide_eq_true_eq, Config.memSize] at hm hmem
          obtain ⟨k, hk, rfl⟩ := hmem
          omega
        rw [hf] at ih
        simp only [Option.some_or]
        rw [ih]
        constructor
        · rintro ⟨h1, h2, h3, h4⟩
          exact ⟨h1, by omega, h3, h4⟩
        · rintro ⟨h1, h2, h3, h4⟩
          refine ⟨h1, ?_, h3, h4⟩
          by_contra hge
          have := h4 c hc.1 (by omega)
          omega
  exact key n

/-- What an instruction that accesses n bytes from base on can do: go on, with every address existing, or raise
OutOfBoundsAccess at the lowest address that does not. -/
theorem withAddresses_cases (ins : Instr) (base n : Nat) (s : State) (body : Outcome) :
    ((n = 0 ∨ base + n ≤ 4096) ∧ withAddresses ins base n s body = body) ∨
    (∃ a, firstOutOfBounds base n = some a ∧
      withAddresses ins base n s body = raise ins .outOfBoundsAccess (some a) s) := by
  unfold withAddresses
  rcases h : firstOutOfBounds base n with _ | a
  · exact .inl ⟨firstOutOfBounds_eq_none.1 h, rfl⟩
  · exact .inr ⟨a, rfl, rfl⟩

theorem withAddresses_inBounds {base n : Nat} (h : n = 0 ∨ base + n ≤ 4096) (ins : Instr) (s : State) (body : Outcome) :
    withAddresses ins base n s body = body := by
  simp only [withAddresses, firstOutOfBounds_eq_none.2 h]

/-! ## The call stack -/

/-- What a push can do. -/
theorem State.push_cases (s : State) (ra : Word) :
    (∃ h : s.sp.val < 16, s.push ra = some { s with stack := s.stack.set s.sp.val ra h, sp := ⟨s.sp.val + 1, by omega⟩ }) ∨
    (s.sp.val = 16 ∧ s.push ra = none) := by
  unfold State.push
  split
  · next h => exact .inl ⟨h, rfl⟩
  · next h => exact .inr ⟨by have := s.sp.isLt; simp only [Config.stackDepth] at h; omega, rfl⟩

/-- What a pop can do. -/
theorem State.pop_cases (s : State) :
    (∃ h : 0 < s.sp.val, s.pop = some (s.stack[s.sp.val - 1]'(by omega), { s with sp := ⟨s.sp.val - 1, by omega⟩ })) ∨
    (s.sp.val = 0 ∧ s.pop = none) := by
  unfold State.pop
  split
  · next h => exact .inl ⟨h, rfl⟩
  · next h => exact .inr ⟨by omega, rfl⟩

/-! ## The keys -/

theorem lowestKeyDown_eq_none {key : Vector Bool 16} : lowestKeyDown key = none ↔ ∀ k : RegIdx, key[k] = false := by
  simp [lowestKeyDown, List.find?_eq_none]

theorem lowestKeyDown_eq_some {key : Vector Bool 16} {k : RegIdx} :
    lowestKeyDown key = some k ↔ key[k] = true ∧ ∀ j : RegIdx, j < k → key[j] = false := by
  unfold lowestKeyDown
  have hs : (List.finRange 16).Pairwise (· < ·) := List.pairwise_lt_finRange 16
  generalize hl : List.finRange 16 = l at hs
  have hk : k ∈ l := by rw [← hl]; exact List.mem_finRange k
  have hall : ∀ j : RegIdx, j ∈ l := fun j => by rw [← hl]; exact List.mem_finRange j
  constructor
  · intro h
    refine ⟨by simpa using List.find?_some h, fun j hj => ?_⟩
    obtain ⟨_, as, bs, hab, has⟩ := List.find?_eq_some_iff_append.1 h
    have hjm : j ∈ as ++ k :: bs := hab ▸ hall j
    rw [hab] at hs
    rcases List.mem_append.1 hjm with hja | hjb
    · simpa using has j hja
    · rcases List.mem_cons.1 hjb with rfl | hjb
      · exact absurd hj (lt_irrefl _)
      · have := (List.pairwise_cons.1 (List.pairwise_append.1 hs).2.1).1 j hjb
        exact absurd hj (not_lt.2 (le_of_lt this))
  · rintro ⟨h1, h2⟩
    rcases hf : l.find? (fun k => key[k]) with _ | c
    · exact absurd h1 (by simpa using List.find?_eq_none.1 hf k hk)
    · have hc : key[c] = true := by simpa using List.find?_some hf
      obtain ⟨_, as, bs, hab, has⟩ := List.find?_eq_some_iff_append.1 hf
      have hkm : k ∈ as ++ c :: bs := hab ▸ hk
      rw [hab] at hs
      rcases List.mem_append.1 hkm with hka | hkb
      · have := has k hka; simp_all
      · rcases List.mem_cons.1 hkb with rfl | hkb
        · rfl
        · have hlt := (List.pairwise_cons.1 (List.pairwise_append.1 hs).2.1).1 k hkb
          have := h2 c hlt
          simp_all

theorem keyNumber_small {k : Byte} (h : k.toNat < 16) (p : KeyIndexPolicy) : keyNumber p k = some ⟨k.toNat, h⟩ := by
  simp [keyNumber, h]

theorem keyNumber_large {k : Byte} (h : 16 ≤ k.toNat) :
    keyNumber .fault k = none ∧ keyNumber .mask k = some (Fin.ofNat 16 k.toNat) := by
  simp [keyNumber, show ¬ k.toNat < 16 by omega]

/-! ## The fetch -/

/-- What the fetch answers. -/
theorem State.fetch_cases (s : State) :
    (s.pc.toNat + 2 ≤ 4096 ∧ s.fetch = .ok (wordOfBytes (s.peek s.pc.toNat) (s.peek (s.pc.toNat + 1)))) ∨
    (4096 ≤ s.pc.toNat + 1 ∧ s.fetch = .error (max s.pc.toNat 4096)) := by
  unfold State.fetch
  rcases h : firstOutOfBounds s.pc.toNat 2 with _ | a
  · exact .inl ⟨by have := firstOutOfBounds_eq_none.1 h; omega, rfl⟩
  · obtain ⟨h1, h2, h3, h4⟩ := firstOutOfBounds_eq_some.1 h
    refine .inr ⟨by omega, ?_⟩
    have : a = max s.pc.toNat 4096 := by
      by_contra hne
      have := h4 (max s.pc.toNat 4096) (by omega) (by omega)
      omega
    rw [this]

end Sys2Proof.Machine
end

