-- ==== Sys2Proof/Laws/Display.lean ====
section
/-! SUPPORT. The framebuffer operations: cells after a toggle, and what drawing a sprite does to every cell. -/

namespace Sys2Proof.Machine

theorem Framebuffer.cell_clear (px : Fin 64) (py : Fin 32) : Framebuffer.clear.cell px py = false := by
  simp [Framebuffer.cell, Framebuffer.clear]

theorem Framebuffer.ext_cell {f g : Framebuffer} (h : ∀ px py, f.cell px py = g.cell px py) : f = g := by
  apply Vector.ext
  intro y hy
  apply Vector.ext
  intro x hx
  exact h ⟨x, hx⟩ ⟨y, hy⟩

theorem Framebuffer.cell_toggle (fb : Framebuffer) (px qx : Fin 64) (py qy : Fin 32) :
    (fb.toggle px py).cell qx qy = (fb.cell qx qy ^^ decide (qx = px ∧ qy = py)) := by
  simp only [Framebuffer.cell, Framebuffer.toggle, Fin.getElem_fin, Vector.getElem_set]
  by_cases hy : py = qy
  · subst hy
    by_cases hx : px = qx
    · subst hx; simp
    · have hx' : px.val ≠ qx.val := fun e => hx (Fin.ext e)
      simp [hx', Ne.symm hx]
  · have hy' : py.val ≠ qy.val := fun e => hy (Fin.ext e)
    simp [hy', Ne.symm hy]

/-! ## One row -/

/-- The pixels of the first m columns of a row byte. -/
abbrev RowCovers (b : Byte) (cx cy m : Nat) (px : Fin 64) (py : Fin 32) : Prop :=
  ∃ c, c < m ∧ b.getLsbD (7 - c) = true ∧ px.val = (cx + c) % 64 ∧ py.val = cy % 32

theorem RowCovers_succ (b : Byte) (cx cy m : Nat) (px : Fin 64) (py : Fin 32) :
    RowCovers b cx cy (m + 1) px py ↔
      RowCovers b cx cy m px py ∨ (b.getLsbD (7 - m) = true ∧ px.val = (cx + m) % 64 ∧ py.val = cy % 32) := by
  constructor
  · rintro ⟨c, hc, h⟩
    rcases Nat.lt_succ_iff_lt_or_eq.1 hc with hc | rfl
    · exact .inl ⟨c, hc, h⟩
    · exact .inr h
  · rintro (⟨c, hc, h⟩ | h)
    · exact ⟨c, Nat.lt_succ_of_lt hc, h⟩
    · exact ⟨m, Nat.lt_succ_self m, h⟩

/-- The first m columns of a row: every covered cell is toggled once, and a covered cell that was set is a hit. -/
theorem drawRow_prefix (b : Byte) (cx cy : Nat) (d : Framebuffer × Bool) (m : Nat) (hm : m ≤ 8) :
    let e := (List.range m).foldl
      (fun d c => if b.getLsbD (7 - c) then togglePixel (Fin.ofNat 64 (cx + c)) (Fin.ofNat 32 cy) d else d) d
    (∀ px py, e.1.cell px py = (d.1.cell px py ^^ decide (RowCovers b cx cy m px py))) ∧
    (e.2 = true ↔ d.2 = true ∨ ∃ px py, RowCovers b cx cy m px py ∧ d.1.cell px py = true) := by
  induction m with
  | zero =>
    have hno : ∀ px py, ¬ RowCovers b cx cy 0 px py := fun px py ⟨c, hc, _⟩ => absurd hc (Nat.not_lt_zero c)
    exact ⟨fun px py => by rw [decide_eq_false (hno px py), Bool.xor_false]; rfl,
      ⟨.inl, fun h => h.elim id fun ⟨px, py, h, _⟩ => absurd h (hno px py)⟩⟩
  | succ m ih =>
    obtain ⟨ihc, ihh⟩ := ih (by omega)
    simp only [List.range_succ, List.foldl_append, List.foldl_cons, List.foldl_nil]
    generalize (List.range m).foldl
      (fun d c => if b.getLsbD (7 - c) then togglePixel (Fin.ofNat 64 (cx + c)) (Fin.ofNat 32 cy) d else d) d = e
      at ihc ihh ⊢
    have hnew : ∀ px py, (px.val = (cx + m) % 64 ∧ py.val = cy % 32) → ¬ RowCovers b cx cy m px py := by
      rintro px py ⟨h1, -⟩ ⟨c, hc, -, h2, -⟩
      omega
    by_cases hb : b.getLsbD (7 - m) = true
    · simp only [hb, if_true, togglePixel]
      have hpix : ∀ (px : Fin 64) (py : Fin 32), (px = Fin.ofNat 64 (cx + m) ∧ py = Fin.ofNat 32 cy) ↔
          (px.val = (cx + m) % 64 ∧ py.val = cy % 32) := by
        intro px py
        simp only [Fin.ext_iff, Fin.val_ofNat]
      refine ⟨fun px py => ?_, ?_⟩
      · rw [Framebuffer.cell_toggle, ihc, Bool.xor_assoc]
        congr 1
        rw [show decide (px = Fin.ofNat 64 (cx + m) ∧ py = Fin.ofNat 32 cy) =
            decide (px.val = (cx + m) % 64 ∧ py.val = cy % 32) from decide_eq_decide.2 (hpix px py),
          show decide (RowCovers b cx cy (m + 1) px py) = decide (RowCovers b cx cy m px py ∨
            (b.getLsbD (7 - m) = true ∧ px.val = (cx + m) % 64 ∧ py.val = cy % 32)) from
            decide_eq_decide.2 (RowCovers_succ b cx cy m px py)]
        by_cases hn : px.val = (cx + m) % 64 ∧ py.val = cy % 32
        · have := hnew px py hn
          simp only [this, hn, hb, and_self, or_true, decide_true, decide_false, Bool.false_xor]
        · simp only [hn, hb, true_and, or_false, decide_false, Bool.xor_false]
      · rw [Bool.or_eq_true, ihh, ihc]
        have hnp : ¬ RowCovers b cx cy m (Fin.ofNat 64 (cx + m)) (Fin.ofNat 32 cy) :=
          hnew _ _ (by simp only [Fin.val_ofNat, and_self])
        simp only [hnp, decide_false, Bool.xor_false]
        constructor
        · rintro ((h | ⟨px, py, h, hc⟩) | h)
          · exact .inl h
          · exact .inr ⟨px, py, (RowCovers_succ ..).2 (.inl h), hc⟩
          · exact .inr ⟨_, _, (RowCovers_succ ..).2 (.inr ⟨hb, by simp only [Fin.val_ofNat, and_self]⟩), h⟩
        · rintro (h | ⟨px, py, h, hc⟩)
          · exact .inl (.inl h)
          · rcases (RowCovers_succ ..).1 h with h | ⟨-, h⟩
            · exact .inl (.inr ⟨px, py, h, hc⟩)
            · obtain ⟨rfl, rfl⟩ := (hpix px py).2 h
              exact .inr hc
    · have hsame : ∀ px py, RowCovers b cx cy (m + 1) px py ↔ RowCovers b cx cy m px py := by
        intro px py
        rw [RowCovers_succ]
        simp only [hb, Bool.false_eq_true, false_and, or_false]
      simp only [hb, Bool.false_eq_true, if_false]
      refine ⟨fun px py => ?_, ?_⟩
      · rw [ihc, show decide (RowCovers b cx cy (m + 1) px py) = decide (RowCovers b cx cy m px py) from
          decide_eq_decide.2 (hsame px py)]
      · rw [ihh]
        simp only [hsame]

theorem drawRow_spec (b : Byte) (cx cy : Nat) (d : Framebuffer × Bool) :
    (∀ px py, (drawRow b cx cy d).1.cell px py = (d.1.cell px py ^^ decide (RowCovers b cx cy 8 px py))) ∧
    ((drawRow b cx cy d).2 = true ↔ d.2 = true ∨ ∃ px py, RowCovers b cx cy 8 px py ∧ d.1.cell px py = true) :=
  drawRow_prefix b cx cy d 8 (Nat.le_refl 8)

/-! ## A sprite of at most 32 rows -/

theorem SpriteCovers_cons (b : Byte) (bs : List Byte) (cx cy : Nat) (px : Fin 64) (py : Fin 32) :
    SpriteCovers (b :: bs) cx cy px py ↔ RowCovers b cx cy 8 px py ∨ SpriteCovers bs cx (cy + 1) px py := by
  constructor
  · rintro ⟨r, hr, c, hc, h1, h2, h3⟩
    cases r with
    | zero => exact .inl ⟨c, hc, h1, h2, h3⟩
    | succ r =>
      exact .inr ⟨r, by simpa using hr, c, hc, h1, h2, by rw [h3]; congr 1; omega⟩
  · rintro (⟨c, hc, h1, h2, h3⟩ | ⟨r, hr, c, hc, h1, h2, h3⟩)
    · exact ⟨0, by simp, c, hc, h1, h2, h3⟩
    · exact ⟨r + 1, by simpa using hr, c, hc, h1, h2, by rw [h3]; congr 1; omega⟩

/-- Drawing the rows of a sprite: every covered cell is toggled once, and a covered cell that was set is a hit. -/
theorem drawRows_spec (rows : List Byte) : ∀ (cx cy : Nat) (d : Framebuffer × Bool), rows.length ≤ 32 →
    (∀ px py, (drawRows rows cx cy d).1.cell px py = (d.1.cell px py ^^ decide (SpriteCovers rows cx cy px py))) ∧
    ((drawRows rows cx cy d).2 = true ↔
      d.2 = true ∨ ∃ px py, SpriteCovers rows cx cy px py ∧ d.1.cell px py = true) := by
  induction rows with
  | nil =>
    intro cx cy d _
    have hno : ∀ px py, ¬ SpriteCovers [] cx cy px py := fun px py ⟨r, hr, _⟩ => absurd hr (Nat.not_lt_zero r)
    exact ⟨fun px py => by rw [decide_eq_false (hno px py), Bool.xor_false]; rfl,
      ⟨.inl, fun h => h.elim id fun ⟨px, py, h, _⟩ => absurd h (hno px py)⟩⟩
  | cons b bs ih =>
    intro cx cy d hlen
    simp only [List.length_cons] at hlen
    obtain ⟨hc, hh⟩ := drawRow_spec b cx cy d
    obtain ⟨ihc, ihh⟩ := ih cx (cy + 1) (drawRow b cx cy d) (by omega)
    have hdisj : ∀ px py, RowCovers b cx cy 8 px py → ¬ SpriteCovers bs cx (cy + 1) px py := by
      rintro px py ⟨_, _, _, _, h1⟩ ⟨r, hr, _, _, _, _, h2⟩
      omega
    refine ⟨fun px py => ?_, ?_⟩
    · rw [drawRows, ihc, hc, Bool.xor_assoc,
        show decide (SpriteCovers (b :: bs) cx cy px py) =
          decide (RowCovers b cx cy 8 px py ∨ SpriteCovers bs cx (cy + 1) px py) from
          decide_eq_decide.2 (SpriteCovers_cons b bs cx cy px py)]
      congr 1
      by_cases h1 : RowCovers b cx cy 8 px py
      · simp only [h1, hdisj px py h1, decide_true, decide_false, Bool.xor_false, true_or]
      · simp only [h1, decide_false, Bool.false_xor, false_or]
    · rw [drawRows, ihh, hh]
      constructor
      · rintro ((h | ⟨px, py, h, h'⟩) | ⟨px, py, h, h'⟩)
        · exact .inl h
        · exact .inr ⟨px, py, (SpriteCovers_cons ..).2 (.inl h), h'⟩
        · by_cases h1 : RowCovers b cx cy 8 px py
          · exact absurd h (hdisj px py h1)
          · rw [hc, decide_eq_false h1, Bool.xor_false] at h'
            exact .inr ⟨px, py, (SpriteCovers_cons ..).2 (.inr h), h'⟩
      · rintro (h | ⟨px, py, h, h'⟩)
        · exact .inl (.inl h)
        · by_cases h1 : RowCovers b cx cy 8 px py
          · exact .inl (.inr ⟨px, py, h1, h'⟩)
          · rcases (SpriteCovers_cons ..).1 h with h | h
            · exact absurd h h1
            · exact .inr ⟨px, py, h, by rw [hc, decide_eq_false h1, Bool.xor_false]; exact h'⟩

end Sys2Proof.Machine
end

