-- ==== Sys2Proof/Laws/Exec.lean ====
section
/-! SUPPORT. What executing an instruction can do, said once for all of them. -/

namespace Sys2Proof.Machine

/-- What the bounds check of an instruction's accesses found. -/
theorem RaisedBy.of_firstOutOfBounds {s : State} {ins : Instr} {n a : Nat} (hn : n = accessLength ins)
    (h : firstOutOfBounds s.base n = some a) : RaisedBy s ins .outOfBoundsAccess (some a) := by
  obtain ⟨h1, h2, h3, h4⟩ := firstOutOfBounds_eq_some.1 h
  exact .pastMemory h1 (hn ▸ h2) h3 h4

/-- What a key number out of range comes from. -/
theorem RaisedBy.of_keyNumber {s : State} {ins : Instr} {x : RegIdx} (hi : ins = .skp x ∨ ins = .sknp x)
    (h : keyNumber s.cfg.keyIndexPolicy (s.reg x) = none) : RaisedBy s ins .outOfBoundsAccess (some (s.reg x).toNat) := by
  by_cases hk : (s.reg x).toNat < 16
  · rw [keyNumber_small hk] at h
    cases h
  · rcases hp : s.cfg.keyIndexPolicy with _ | _
    · exact .keyTooLarge x hi hp (by omega)
    · rw [hp, (keyNumber_large (by omega)).2] at h
      cases h

/-- An instruction raises no UnrecognizedInstruction, and records an address exactly for OutOfBoundsAccess. -/
theorem RaisedBy.addr_isSome_iff {s : State} {ins : Instr} {c : Condition} {addr : Option Nat} (h : RaisedBy s ins c addr) :
    c ≠ .unrecognizedInstruction ∧ (addr.isSome = true ↔ c = .outOfBoundsAccess) := by
  cases h <;> simp

/-- Every instruction completes, leaving RUN, FAULT, KEY, the beep record and the parameters alone, or raises the condition
and records the address that its cause in this state gives. -/
theorem exec_cases (ins : Instr) (s : State) :
    (∃ t, exec ins s = .next t ∧ t.run = s.run ∧ t.fault = s.fault ∧ t.key = s.key ∧ t.beeps = s.beeps ∧ t.cfg = s.cfg) ∨
    (∃ c addr, exec ins s = .next (s.halt c (some (encode ins)) addr) ∧ RaisedBy s ins c addr) := by
  have done : ∀ {x : Outcome} (o : PcOutcome) (u : State), x = complete o u →
      (u.run = s.run ∧ u.fault = s.fault ∧ u.key = s.key ∧ u.beeps = s.beeps ∧ u.cfg = s.cfg) →
      (∃ t, x = .next t ∧ t.run = s.run ∧ t.fault = s.fault ∧ t.key = s.key ∧ t.beeps = s.beeps ∧ t.cfg = s.cfg) := by
    rintro x o u rfl hu
    exact ⟨_, rfl, by simpa using hu⟩
  cases ins with
  | ret =>
    rcases s.pop_cases with ⟨h, e⟩ | ⟨h, e⟩
    · exact .inl (done (.goto _) _ (by simp only [exec, execRet, e]; rfl) (by simp))
    · exact .inr ⟨.stackUnderflow, none, by simp only [exec, execRet, e, raise], .emptyStack h⟩
  | call nnn =>
    rcases s.push_cases s.pc with ⟨h, e⟩ | ⟨h, e⟩
    · exact .inl (done (.goto _) _ (by simp only [exec, execCall, e]; rfl) (by simp))
    · exact .inr ⟨.stackOverflow, none, by simp only [exec, execCall, e, raise], .fullStack nnn h⟩
  | drw x y n =>
    rcases withAddresses_cases (.drw x y n) s.base n.toNat s
      (let d := drawSprite s.fb (s.reg x) (s.reg y) (s.peeks s.base n.toNat)
       complete .next (({ s with fb := d.1, dirty := true } : State).setFlag d.2)) with ⟨-, e⟩ | ⟨a, ha, e⟩
    · exact .inl (done _ _ e (by simp))
    · exact .inr ⟨_, _, e, .of_firstOutOfBounds rfl ha⟩
  | skp x =>
    rcases hk : keyNumber s.cfg.keyIndexPolicy (s.reg x) with _ | k
    · exact .inr ⟨.outOfBoundsAccess, some (s.reg x).toNat, by simp only [exec, execSkp, skipIfKey, hk, raise],
        .of_keyNumber (.inl rfl) hk⟩
    · exact .inl (done _ s (by simp only [exec, execSkp, skipIfKey, hk, skipIf]; rfl) ⟨rfl, rfl, rfl, rfl, rfl⟩)
  | sknp x =>
    rcases hk : keyNumber s.cfg.keyIndexPolicy (s.reg x) with _ | k
    · exact .inr ⟨.outOfBoundsAccess, some (s.reg x).toNat, by simp only [exec, execSknp, skipIfKey, hk, raise],
        .of_keyNumber (.inr rfl) hk⟩
    · exact .inl (done _ s (by simp only [exec, execSknp, skipIfKey, hk, skipIf]; rfl) ⟨rfl, rfl, rfl, rfl, rfl⟩)
  | ldXK x =>
    rcases hk : lowestKeyDown s.key with _ | k
    · exact .inl (done .hold s (by simp only [exec, execLdXK, hk]) ⟨rfl, rfl, rfl, rfl, rfl⟩)
    · exact .inl (done .next (s.setReg x (BitVec.ofNat 8 k.val)) (by simp only [exec, execLdXK, hk])
        ⟨rfl, rfl, rfl, rfl, rfl⟩)
  | ldBX x =>
    rcases withAddresses_cases (.ldBX x) s.base 3 s
      (complete .next (s.pokes s.base (bcdDigits (s.reg x)))) with ⟨-, e⟩ | ⟨a, ha, e⟩
    · exact .inl (done _ _ e (by simp))
    · exact .inr ⟨_, _, e, .of_firstOutOfBounds rfl ha⟩
  | ldMiX x =>
    rcases withAddresses_cases (.ldMiX x) s.base (blockSize x) s
      (complete .next ((s.pokes s.base (s.firstRegs (blockSize x))).advanceI x)) with ⟨-, e⟩ | ⟨a, ha, e⟩
    · exact .inl (done _ _ e (by simp))
    · exact .inr ⟨_, _, e, .of_firstOutOfBounds rfl ha⟩
  | ldXMi x =>
    rcases withAddresses_cases (.ldXMi x) s.base (blockSize x) s
      (complete .next ((s.setRegs 0 (s.peeks s.base (blockSize x))).advanceI x)) with ⟨-, e⟩ | ⟨a, ha, e⟩
    · exact .inl (done _ _ e (by simp))
    · exact .inr ⟨_, _, e, .of_firstOutOfBounds rfl ha⟩
  | _ => exact .inl (done _ _ rfl ⟨rfl, rfl, rfl, rfl, rfl⟩)

end Sys2Proof.Machine
end

