-- ==== Sys2Proof/Laws/PerInstr.lean ====
section
/-! SUPPORT. A law per instruction, by constructor: the line R87 writes for an instruction spells that instruction (R89). -/

namespace Sys2Proof.Laws.Assemble

/-- Assembling the line R87 writes for `i` gives `i` back. -/
def Statement (i : Instr) : Prop := assembleInstr (disassemble i).1 (disassemble i).2 = some i

theorem regOperand_val (x : RegIdx) : regOperand x.val = some x := by
  simp [regOperand, x.isLt]

theorem immOperand_toNat {w : Nat} (b : BitVec w) : immOperand w b.toNat = some b := by
  simp [immOperand, b.isLt]

theorem cls : Statement .cls := rfl
theorem ret : Statement .ret := rfl
theorem jp (nnn : Addr) : Statement (.jp nnn) := by
  simp [Statement, disassemble, assembleInstr, withAddr, immOperand_toNat]
theorem call (nnn : Addr) : Statement (.call nnn) := by
  simp [Statement, disassemble, assembleInstr, withAddr, immOperand_toNat]
theorem seB (x : RegIdx) (nn : Byte) : Statement (.seB x nn) := by
  simp [Statement, disassemble, assembleInstr, withRegByte, regOperand_val, immOperand_toNat]
theorem sneB (x : RegIdx) (nn : Byte) : Statement (.sneB x nn) := by
  simp [Statement, disassemble, assembleInstr, withRegByte, regOperand_val, immOperand_toNat]
theorem seR (x y : RegIdx) : Statement (.seR x y) := by
  simp [Statement, disassemble, assembleInstr, withRegs, regOperand_val]
theorem ldB (x : RegIdx) (nn : Byte) : Statement (.ldB x nn) := by
  simp [Statement, disassemble, assembleInstr, withRegByte, regOperand_val, immOperand_toNat]
theorem addB (x : RegIdx) (nn : Byte) : Statement (.addB x nn) := by
  simp [Statement, disassemble, assembleInstr, withRegByte, regOperand_val, immOperand_toNat]
theorem ldR (x y : RegIdx) : Statement (.ldR x y) := by
  simp [Statement, disassemble, assembleInstr, withRegs, regOperand_val]
theorem orR (x y : RegIdx) : Statement (.orR x y) := by
  simp [Statement, disassemble, assembleInstr, withRegs, regOperand_val]
theorem andR (x y : RegIdx) : Statement (.andR x y) := by
  simp [Statement, disassemble, assembleInstr, withRegs, regOperand_val]
theorem xorR (x y : RegIdx) : Statement (.xorR x y) := by
  simp [Statement, disassemble, assembleInstr, withRegs, regOperand_val]
theorem addR (x y : RegIdx) : Statement (.addR x y) := by
  simp [Statement, disassemble, assembleInstr, withRegs, regOperand_val]
theorem sub (x y : RegIdx) : Statement (.sub x y) := by
  simp [Statement, disassemble, assembleInstr, withRegs, regOperand_val]
theorem shr (x y : RegIdx) : Statement (.shr x y) := by
  simp [Statement, disassemble, assembleInstr, withRegs, regOperand_val]
theorem subn (x y : RegIdx) : Statement (.subn x y) := by
  simp [Statement, disassemble, assembleInstr, withRegs, regOperand_val]
theorem shl (x y : RegIdx) : Statement (.shl x y) := by
  simp [Statement, disassemble, assembleInstr, withRegs, regOperand_val]
theorem sneR (x y : RegIdx) : Statement (.sneR x y) := by
  simp [Statement, disassemble, assembleInstr, withRegs, regOperand_val]
theorem ldI (nnn : Addr) : Statement (.ldI nnn) := by
  simp [Statement, disassemble, assembleInstr, withAddr, immOperand_toNat]
theorem jpV0 (nnn : Addr) : Statement (.jpV0 nnn) := by
  simp [Statement, disassemble, assembleInstr, withAddr, immOperand_toNat]
theorem rnd (x : RegIdx) (nn : Byte) : Statement (.rnd x nn) := by
  simp [Statement, disassemble, assembleInstr, withRegByte, regOperand_val, immOperand_toNat]
theorem drw (x y : RegIdx) (n : Nibble) : Statement (.drw x y n) := by
  simp [Statement, disassemble, assembleInstr, regOperand_val, immOperand_toNat]
theorem skp (x : RegIdx) : Statement (.skp x) := by
  simp [Statement, disassemble, assembleInstr, withReg, regOperand_val]
theorem sknp (x : RegIdx) : Statement (.sknp x) := by
  simp [Statement, disassemble, assembleInstr, withReg, regOperand_val]
theorem ldXDt (x : RegIdx) : Statement (.ldXDt x) := by
  simp [Statement, disassemble, assembleInstr, withReg, regOperand_val]
theorem ldXK (x : RegIdx) : Statement (.ldXK x) := by
  simp [Statement, disassemble, assembleInstr, withReg, regOperand_val]
theorem ldDtX (x : RegIdx) : Statement (.ldDtX x) := by
  simp [Statement, disassemble, assembleInstr, withReg, regOperand_val]
theorem ldStX (x : RegIdx) : Statement (.ldStX x) := by
  simp [Statement, disassemble, assembleInstr, withReg, regOperand_val]
theorem addI (x : RegIdx) : Statement (.addI x) := by
  simp [Statement, disassemble, assembleInstr, withReg, regOperand_val]
theorem ldF (x : RegIdx) : Statement (.ldF x) := by
  simp [Statement, disassemble, assembleInstr, withReg, regOperand_val]
theorem ldBX (x : RegIdx) : Statement (.ldBX x) := by
  simp [Statement, disassemble, assembleInstr, withReg, regOperand_val]
theorem ldMiX (x : RegIdx) : Statement (.ldMiX x) := by
  simp [Statement, disassemble, assembleInstr, withReg, regOperand_val]
theorem ldXMi (x : RegIdx) : Statement (.ldXMi x) := by
  simp [Statement, disassemble, assembleInstr, withReg, regOperand_val]

end Sys2Proof.Laws.Assemble
end

