-- ==== Sys2Proof/Laws/Step.lean ====
section
/-! SUPPORT. What one step can do, said once. -/

namespace Sys2Proof.Machine

/-- Every step answers in one of these four ways. -/
theorem step_cases (s : State) :
    (s.run ≠ .running ∧ step s = .next s) ∨
    (s.run = .running ∧ ∃ a, s.fetch = .error a ∧ step s = .next (s.fetchFault a)) ∨
    (s.run = .running ∧ ∃ op, s.fetch = .ok op ∧ decodeWord op = .unrecognized ∧ step s = .next (s.illegalWord op)) ∨
    (s.run = .running ∧ ∃ op ins, s.fetch = .ok op ∧ decodeWord op = .instr ins ∧
      ∀ t, exec ins s = .next t → step s = .next t.endStep) := by
  rcases hr : s.run with _ | _ | _
  · exact .inl ⟨by simp, by simp [step, hr]⟩
  · refine .inr ?_
    rcases hf : s.fetch with a | op
    · exact .inl ⟨rfl, a, rfl, by simp [step, hr, hf]⟩
    · rcases hd : decodeWord op with ins | _
      · exact .inr (.inr ⟨rfl, op, ins, rfl, hd, fun t ht => by simp [step, hr, hf, hd, ht]⟩)
      · exact .inr (.inl ⟨rfl, op, rfl, hd, by simp [step, hr, hf, hd]⟩)
  · exact .inl ⟨by simp, by simp [step, hr]⟩

end Sys2Proof.Machine
end

