-- ==== Sys2Proof/Tests/Slice0.lean ====
section
/-! SUPPORT. Tests. The expected values come from spec/: the encodings of 30_encoding.md and the vectors of
95_test_vectors.md (cited by their ids). The last section shows, for every statement that has hypotheses, inputs that meet them. -/

namespace Sys2Proof.Tests

open Sys2Proof.Machine Sys2Proof.Claims

set_option Elab.async false

/-! ## Well-formedness: one ill-formed line for each check (R87, R88, R89) -/

theorem test_illformed_register : Stmt.wellFormed (.instr .skp [.reg 16]) = false := by decide
theorem test_illformed_second_register : Stmt.wellFormed (.instr .add [.reg 1, .reg 16]) = false := by decide
theorem test_illformed_nn : Stmt.wellFormed (.instr .ld [.reg 1, .num 0x100]) = false := by decide
theorem test_illformed_nnn : Stmt.wellFormed (.instr .call [.num 0x1000]) = false := by decide
theorem test_illformed_n : Stmt.wellFormed (.instr .drw [.reg 1, .reg 2, .num 0x10]) = false := by decide
theorem test_illformed_operand_list : Stmt.wellFormed (.instr .jp [.reg 1, .num 0x200]) = false := by decide
theorem test_illformed_dw : Stmt.wellFormed (.dw 0x10000) = false := by decide
theorem test_illformed_db : Stmt.wellFormed (.db 0x100) = false := by decide

/-- Lines of the programs of 95_test_vectors.md section 3 (P1, P2, P3, P7), with their bytes. -/
theorem test_lines :
    Stmt.bytes (.instr .add [.reg 1, .num 0xFF]) = some [0x71, 0xFF] ∧
    Stmt.bytes (.instr .jp [.reg 0, .num 0x206]) = some [0xB2, 0x06] ∧
    Stmt.bytes (.instr .ld [.bcd, .reg 10]) = some [0xFA, 0x33] ∧
    Stmt.bytes (.instr .drw [.reg 0, .reg 1, .num 2]) = some [0xD0, 0x12] ∧
    Stmt.bytes (.dw 0xC080) = some [0xC0, 0x80] ∧ Stmt.bytes (.db 0x7F) = some [0x7F] := by decide

/-! ## Decoding: a word written out from R78 and R79 for every constructor -/

theorem test_decode_control :
    decodeWord 0b0000000011101110#16 = .instr .ret ∧ decodeWord 0b0001001000110100#16 = .instr (.jp 0x234) ∧
    decodeWord 0b0010101111001101#16 = .instr (.call 0xBCD) ∧ decodeWord 0b0011000101000010#16 = .instr (.seB 1 0x42) ∧
    decodeWord 0b0100001010000001#16 = .instr (.sneB 2 0x81) ∧ decodeWord 0b0101001101000000#16 = .instr (.seR 3 4) ∧
    decodeWord 0b1001110001010000#16 = .instr (.sneR 12 5) ∧ decodeWord 0b1011111100000001#16 = .instr (.jpV0 0xF01) := by
  decide

theorem test_decode_alu :
    decodeWord 0b0110101000000101#16 = .instr (.ldB 10 0x05) ∧ decodeWord 0b0111000111111111#16 = .instr (.addB 1 0xFF) ∧
    decodeWord 0b1000000100100000#16 = .instr (.ldR 1 2) ∧ decodeWord 0b1000001000010001#16 = .instr (.orR 2 1) ∧
    decodeWord 0b1000111100010010#16 = .instr (.andR 15 1) ∧ decodeWord 0b1000000111110011#16 = .instr (.xorR 1 15) ∧
    decodeWord 0b1000001101110100#16 = .instr (.addR 3 7) ∧ decodeWord 0b1000011100110101#16 = .instr (.sub 7 3) ∧
    decodeWord 0b1000010011010110#16 = .instr (.shr 4 13) ∧ decodeWord 0b1000100000010111#16 = .instr (.subn 8 1) ∧
    decodeWord 0b1000000101001110#16 = .instr (.shl 1 4) ∧ decodeWord 0b1100001100001111#16 = .instr (.rnd 3 0x0F) := by
  decide

theorem test_decode_index_memory :
    decodeWord 0b1010001100000000#16 = .instr (.ldI 0x300) ∧ decodeWord 0b1111001000011110#16 = .instr (.addI 2) ∧
    decodeWord 0b1111000100101001#16 = .instr (.ldF 1) ∧ decodeWord 0b1111101000110011#16 = .instr (.ldBX 10) ∧
    decodeWord 0b1111001001010101#16 = .instr (.ldMiX 2) ∧ decodeWord 0b1111111101100101#16 = .instr (.ldXMi 15) := by
  decide

theorem test_decode_display_keys_timers :
    decodeWord 0b0000000011100000#16 = .instr .cls ∧ decodeWord 0b1101001110100111#16 = .instr (.drw 3 10 7) ∧
    decodeWord 0b1110000110011110#16 = .instr (.skp 1) ∧ decodeWord 0b1110010110100001#16 = .instr (.sknp 5) ∧
    decodeWord 0b1111000100000111#16 = .instr (.ldXDt 1) ∧ decodeWord 0b1111001100001010#16 = .instr (.ldXK 3) ∧
    decodeWord 0b1111000000010101#16 = .instr (.ldDtX 0) ∧ decodeWord 0b1111110000011000#16 = .instr (.ldStX 12) := by
  decide

/-- 95_test_vectors.md section 2.2: the words that decode as Unrecognized. -/
theorem test_decode_unrecognized :
    ([0x0000, 0x0FFF, 0x01E0, 0x00E1, 0x5121, 0x912F, 0x8128, 0x812F, 0xE19F, 0xF100, 0xF0FF] : List Word).all
      (decodeWord · = .unrecognized) = true := by decide

theorem test_decode_bytes :
    decodeBytes [0x6A, 0x05, 0x7A] = some (.instr (.ldB 10 0x05), [0x7A]) ∧ decodeBytes [0x6A] = none ∧
    decodeTableWord 16 0x6A05 = some (.ldB 10 0x05) ∧ decodeTableWord 16 0x5121 = none ∧
    decodeTableWord 32 0x6A05 = none := by decide

/-! ## One step -/

/-- The outcome is a next state with the property. -/
def endsIn (o : Outcome) (p : State → Bool) : Bool :=
  match o with
  | .next t => p t
  | .fault _ => false
  | .refused _ => false

theorem next_of_endsIn {o : Outcome} {p : State → Bool} (h : endsIn o p = true) : ∃ t, o = .next t ∧ p t = true := by
  cases o with
  | next t => exact ⟨t, rfl, h⟩
  | fault r => cases h
  | refused r => cases h

/-- The reset state with these register values. -/
def withRegs (l : List (RegIdx × Byte)) (s : State := State.reset) : State := l.foldl (fun s p => s.setReg p.1 p.2) s

/-- One step of the word, placed at PC. -/
def run1 (op : Word) (s : State := State.reset) : Outcome := step (s.placeWord op)

/-- The states agree on the registers, PC, I, SP, the timers, memory and DIRTY. -/
def sameCore (s t : State) : Bool :=
  (t.v, t.pc, t.i, t.sp, t.dt, t.st) == (s.v, s.pc, s.i, s.sp, s.dt, s.st) && (t.mem, t.dirty) == (s.mem, s.dirty)

/-- A step of s raises this condition, and leaves the rest as `sameCore` compares it. -/
def faults (s : State) (kind : Condition) (opcode : Option Word) (addr : Option Nat) : Bool :=
  endsIn (step s) fun t => sameCore s t && t.run == .halted &&
    t.fault == some { kind := kind, pc := s.pc, opcode := opcode, addr := addr }

/-- ALU_READ_ORDER set to `latched`. -/
def latched : State := { State.reset with cfg := { Params.default with aluReadOrder := .latched } }

/-- KEY_INDEX_POLICY set to `mask`. -/
def masked : State := { State.reset with cfg := { Params.default with keyIndexPolicy := .mask } }

/-! The cycle (T1, T5, T7, T9, T10, W9) -/

theorem test_fetch_past_memory :
    faults { State.reset with pc := 0xFFF } .outOfBoundsAccess none (some 0x1000) = true := by decide +kernel
theorem test_fetch_far_past_memory :
    faults { State.reset with pc := 0x10FE } .outOfBoundsAccess none (some 0x10FE) = true := by decide +kernel
theorem test_tick : endsIn (run1 0x6000 { State.reset with dt := 3, st := 3 })
    (fun t => (t.dt, t.st, t.beeps) = (2, 2, 0)) = true := by decide +kernel
theorem test_beep : endsIn (run1 0x6000 { State.reset with st := 1 })
    (fun t => (t.dt, t.st, t.beeps) = (0, 0, 1)) = true := by decide +kernel
theorem test_idle_step : endsIn (step State.powerOn) (fun t => sameCore State.powerOn t && t.run == .idle) = true := by decide +kernel
theorem test_unrecognized : faults (({ State.reset with dt := 5, st := 1 } : State).placeWord 0x0FFF)
    .unrecognizedInstruction (some 0x0FFF) none = true := by decide +kernel

/-! Control transfer (CF1 to CF17, W5) -/

theorem test_ret :
    endsIn (run1 0x00EE { State.reset with pc := 0x210, sp := 1, stack := State.reset.stack.set 0 0x204 })
      (fun t => (t.sp, t.pc, t.stack[0]) = (0, 0x206, 0x204)) = true := by decide +kernel
theorem test_ret_empty : faults (State.reset.placeWord 0x00EE) .stackUnderflow (some 0x00EE) none = true := by
  decide +kernel
theorem test_jp : endsIn (run1 0x1234) (fun t => t.pc = 0x234) = true := by decide +kernel
theorem test_call : endsIn (run1 0x2210 { State.reset with pc := 0x204, sp := 15 })
    (fun t => (t.sp, t.pc, t.stack[15], t.stack[14]) = (16, 0x210, 0x204, 0)) = true := by decide +kernel
theorem test_call_full : faults (({ State.reset with pc := 0x204, sp := 16 } : State).placeWord 0x2210)
    .stackOverflow (some 0x2210) none = true := by decide +kernel
theorem test_seB : endsIn (run1 0x3342 (withRegs [(3, 0x42)])) (fun t => t.pc = 0x204) = true := by decide +kernel
theorem test_seB_no_skip : endsIn (run1 0x3342 (withRegs [(3, 0x41)])) (fun t => t.pc = 0x202) = true := by decide +kernel
theorem test_sneB : endsIn (run1 0x4342 (withRegs [(3, 0x41)])) (fun t => t.pc = 0x204) = true := by decide +kernel
theorem test_sneB_no_skip : endsIn (run1 0x4342 (withRegs [(3, 0x42)])) (fun t => t.pc = 0x202) = true := by
  decide +kernel
theorem test_seR : endsIn (run1 0x5120 (withRegs [(1, 7), (2, 7)])) (fun t => t.pc = 0x204) = true := by decide +kernel
theorem test_seR_no_skip : endsIn (run1 0x5120 (withRegs [(1, 7), (2, 8)])) (fun t => t.pc = 0x202) = true := by
  decide +kernel
theorem test_sneR : endsIn (run1 0x9120 (withRegs [(1, 7), (2, 8)])) (fun t => t.pc = 0x204) = true := by decide +kernel
theorem test_sneR_no_skip : endsIn (run1 0x9120 (withRegs [(1, 7), (2, 7)])) (fun t => t.pc = 0x202) = true := by
  decide +kernel
theorem test_jpV0 : endsIn (run1 0xBFFF (withRegs [(0, 0xFF)])) (fun t => t.pc = 0x10FE) = true := by decide +kernel

/-! Loads and the ALU (A1 to A26, AF1 to AF10) -/

theorem test_ldB : endsIn (run1 0x61AB) (fun t => (t.reg 1, t.pc) = (0xAB, 0x202)) = true := by decide +kernel
theorem test_addB : endsIn (run1 0x7FFF (withRegs [(15, 1)])) (fun t => t.reg 15 = 0) = true := by decide +kernel
theorem test_ldR : endsIn (run1 0x8120 (withRegs [(2, 0x33)])) (fun t => (t.reg 1, t.reg 2) = (0x33, 0x33)) = true := by
  decide +kernel
theorem test_orR : endsIn (run1 0x8121 (withRegs [(1, 0x0F), (2, 0xF0), (15, 7)]))
    (fun t => (t.reg 1, t.reg 15) = (0xFF, 7)) = true := by decide +kernel
theorem test_andR : endsIn (run1 0x8122 (withRegs [(1, 0x3C), (2, 0x0F)])) (fun t => t.reg 1 = 0x0C) = true := by
  decide +kernel
theorem test_xorR : endsIn (run1 0x8123 (withRegs [(1, 0x3C), (2, 0x0F)])) (fun t => t.reg 1 = 0x33) = true := by
  decide +kernel
theorem test_addR : endsIn (run1 0x8124 (withRegs [(1, 0xFF), (2, 1)]))
    (fun t => (t.reg 1, t.reg 2, t.reg 15) = (0, 1, 1)) = true := by decide +kernel
theorem test_addR_into_vF : endsIn (run1 0x8F14 (withRegs [(15, 0xFF), (1, 2)])) (fun t => t.reg 15 = 1) = true := by
  decide +kernel
theorem test_sub : endsIn (run1 0x8125 (withRegs [(1, 5), (2, 5)])) (fun t => (t.reg 1, t.reg 15) = (0, 1)) = true := by
  decide +kernel
theorem test_sub_into_vF :
    endsIn (run1 0x8F15 (withRegs [(15, 0x10), (1, 5)])) (fun t => t.reg 15 = 0xFC) = true ∧
    endsIn (run1 0x8F15 (withRegs [(15, 0x10), (1, 5)] latched)) (fun t => t.reg 15 = 0x0B) = true := by decide +kernel
theorem test_shr : endsIn (run1 0x8126 (withRegs [(1, 5), (2, 0x99)]))
    (fun t => (t.reg 1, t.reg 2, t.reg 15) = (2, 0x99, 1)) = true := by decide +kernel
theorem test_shr_vF :
    endsIn (run1 0x8F16 (withRegs [(15, 3)])) (fun t => t.reg 15 = 0) = true ∧
    endsIn (run1 0x8F16 (withRegs [(15, 3)] latched)) (fun t => t.reg 15 = 1) = true := by decide +kernel
theorem test_subn : endsIn (run1 0x8127 (withRegs [(1, 2), (2, 1)])) (fun t => (t.reg 1, t.reg 15) = (0xFF, 0)) = true := by
  decide +kernel
theorem test_subn_from_vF :
    endsIn (run1 0x81F7 (withRegs [(1, 5), (15, 0x10)])) (fun t => (t.reg 1, t.reg 15) = (0xFC, 1)) = true ∧
    endsIn (run1 0x81F7 (withRegs [(1, 5), (15, 0x10)] latched)) (fun t => (t.reg 1, t.reg 15) = (0x0B, 1)) = true := by
  decide +kernel
theorem test_shl : endsIn (run1 0x810E (withRegs [(1, 0x81)])) (fun t => (t.reg 1, t.reg 15) = (2, 1)) = true := by
  decide +kernel
theorem test_shl_vF :
    endsIn (run1 0x8F1E (withRegs [(15, 0xC1)])) (fun t => t.reg 15 = 2) = true ∧
    endsIn (run1 0x8F1E (withRegs [(15, 0xC1)] latched)) (fun t => t.reg 15 = 0x82) = true := by decide +kernel
/-- A25: the draw is given here, since `Config.randDraw` is free. -/
theorem test_rnd_mask : endsIn (rndWith 0xA7 3 0x0F State.reset) (fun t => (t.reg 3, t.draws) = (0x07, 1)) = true := by
  decide +kernel
theorem test_rnd_vF : endsIn (rndWith 0xA7 15 0 (withRegs [(15, 9)])) (fun t => t.reg 15 = 0) = true := by decide +kernel

/-! Index and memory (M1 to M26) -/

theorem test_ldI : endsIn (run1 0xA300) (fun t => t.i = 0x300) = true := by decide +kernel
theorem test_addI : endsIn (run1 0xFF1E (withRegs [(15, 5)] { State.reset with i := 0x0FFE }))
    (fun t => (t.i, t.reg 15) = (0x1003, 1)) = true := by decide +kernel
theorem test_addI_wraps : endsIn (run1 0xF21E (withRegs [(2, 1)] { State.reset with i := 0xFFFF }))
    (fun t => (t.i, t.reg 15) = (0, 0)) = true := by decide +kernel
theorem test_ldF : endsIn (run1 0xF029 (withRegs [(0, 0xFF)])) (fun t => t.i = 0x54B) = true := by decide +kernel
theorem test_ldBX : endsIn (run1 0xFA33 (withRegs [(10, 0x7B)] { State.reset with i := 0x300 }))
    (fun t => (t.peek 0x300, t.peek 0x301, t.peek 0x302, t.i) = (1, 2, 3, 0x300)) = true := by decide +kernel
theorem test_ldBX_past_memory : faults ((withRegs [(0, 1)] { State.reset with i := 0xFFE }).placeWord 0xF033)
    .outOfBoundsAccess (some 0xF033) (some 0x1000) = true := by decide +kernel
theorem test_ldMiX : endsIn (run1 0xF255 (withRegs [(0, 1), (1, 2), (2, 3)] { State.reset with i := 0xFFD }))
    (fun t => (t.peek 0xFFD, t.peek 0xFFE, t.peek 0xFFF, t.i) = (1, 2, 3, 0x1000)) = true := by decide +kernel
theorem test_ldMiX_past_memory :
    faults ((withRegs [(0, 1), (1, 2), (2, 3), (3, 4)] { State.reset with i := 0xFFD }).placeWord 0xF355)
      .outOfBoundsAccess (some 0xF355) (some 0x1000) = true := by decide +kernel
theorem test_ldXMi :
    endsIn (run1 0xFF65 ((({ State.reset with i := 0x300 } : State).poke 0x300 0x11).poke 0x30F 0xAB))
      (fun t => (t.reg 0, t.reg 1, t.reg 14, t.reg 15, t.i) = (0x11, 0, 0, 0xAB, 0x310)) = true := by decide +kernel
theorem test_ldXMi_past_memory : faults (({ State.reset with i := 0xFFF } : State).placeWord 0xF165)
    .outOfBoundsAccess (some 0xF165) (some 0x1000) = true := by decide +kernel

/-! Display (DS2 to DS11) -/

theorem test_cls : endsIn (run1 0x00E0 (withRegs [(15, 9)] { State.reset with fb := State.reset.fb.toggle 7 5 }))
    (fun t => !t.fb.cell 7 5 && t.dirty && t.reg 15 == 9) = true := by decide +kernel
theorem test_drw_wraps : endsIn (run1 0xD011 (withRegs [(0, 70), (1, 40)] (({ State.reset with i := 0x300 } : State).poke 0x300 0x81)))
    (fun t => t.fb.cell 6 8 && t.fb.cell 13 8 && !t.fb.cell 7 8 && !t.fb.cell 6 9 && t.reg 15 == 0 && t.dirty) = true := by decide +kernel
theorem test_drw_hit :
    endsIn (run1 0xD001 (({ State.reset with i := 0x300, fb := (State.reset.fb.toggle 0 0).toggle 1 0 } : State).poke 0x300 0x80))
      (fun t => !t.fb.cell 0 0 && t.fb.cell 1 0 && t.reg 15 == 1) = true := by decide +kernel
theorem test_drw_past_memory : faults ((({ State.reset with i := 0xFFF } : State).poke 0xFFF 0xFF).placeWord 0xD012)
    .outOfBoundsAccess (some 0xD012) (some 0x1000) = true := by decide +kernel

/-! Keys and timers (K1 to K16) -/

theorem test_skp : endsIn (run1 0xE59E ((withRegs [(5, 0x0A)]).keySet 10 true)) (fun t => t.pc = 0x204) = true := by
  decide +kernel
theorem test_skp_number :
    faults ((withRegs [(5, 0x1A)]).placeWord 0xE59E) .outOfBoundsAccess (some 0xE59E) (some 0x1A) = true ∧
    endsIn (run1 0xE59E ((withRegs [(5, 0x1A)] masked).keySet 10 true)) (fun t => t.pc = 0x204) = true := by decide +kernel
theorem test_sknp : endsIn (run1 0xE5A1 ((withRegs [(5, 0x0A)]).keySet 10 true)) (fun t => t.pc = 0x202) = true := by
  decide +kernel
theorem test_sknp_number :
    faults ((withRegs [(5, 0x10)]).placeWord 0xE5A1) .outOfBoundsAccess (some 0xE5A1) (some 0x10) = true ∧
    endsIn (run1 0xE5A1 (withRegs [(5, 0x10)] masked)) (fun t => t.pc = 0x204) = true := by decide +kernel
theorem test_ldXK : endsIn (run1 0xF30A ((State.reset.keySet 3 true).keySet 1 true))
    (fun t => (t.reg 3, t.pc) = (1, 0x202)) = true := by decide +kernel
theorem test_ldXK_waits : endsIn (run1 0xF30A { State.reset with dt := 5, st := 1 })
    (fun t => (t.pc, t.dt, t.st, t.beeps) = (0x200, 4, 0, 1)) = true := by decide +kernel
theorem test_ldXDt : endsIn (run1 0xF107 { State.reset with dt := 2 }) (fun t => (t.reg 1, t.dt) = (2, 1)) = true := by
  decide +kernel
theorem test_ldDtX : endsIn (run1 0xF015 (withRegs [(0, 3)])) (fun t => t.dt = 2) = true := by decide +kernel
theorem test_ldStX : endsIn (run1 0xF018 (withRegs [(0, 1)])) (fun t => (t.st, t.beeps) = (0, 1)) = true := by
  decide +kernel
theorem test_ldStX_two : endsIn (run1 0xF018 (withRegs [(0, 2)])) (fun t => (t.st, t.beeps) = (1, 0)) = true := by
  decide +kernel

/-! Reset and load (W10, RS2 to RS5) -/

theorem test_load :
    let t := (State.powerOn.load [0x6A, 0x05, 0x7A, 0x10]).2
    t.run = .running ∧ (t.peek 0x200, t.peek 0x203, t.peek 0x204, t.peek 0x09F) = (0x6A, 0x10, 0, 0x80) := by decide +kernel
theorem test_load_too_long :
    let s := withRegs [(0, 7)]
    let r := s.load (List.replicate 3585 0)
    let c := ({ s with cfg := { Params.default with loadFailResets := true } } : State).load (List.replicate 3585 0)
    (r.1, r.2.reg 0, r.2.run) = (.capacityExceeded, 7, .idle) ∧
    (c.1, c.2.reg 0, c.2.run) = (.capacityExceeded, 0, .idle) := by decide +kernel
theorem test_load_clears_keys : ((State.reset.keySet 5 true).load []).2.key[5] = false := by decide +kernel
/-- W10: after a load of the empty image, the first step raises UnrecognizedInstruction on the word 0x0000. -/
theorem test_empty_image : faults State.reset .unrecognizedInstruction (some 0x0000) none = true := by decide +kernel

/-! ## Witnesses: inputs that meet the hypotheses of each statement that has some, at the ends of their ranges -/

/-- The reset state with this I. -/
abbrev atI (i : Word) : State := { State.reset with i := i }

/-- The reset state with this PC. -/
abbrev atPc (pc : Word) : State := { State.reset with pc := pc }

/-- The reset state with every key up but this one. -/
abbrev keyDown (k : RegIdx) : State := State.reset.keySet k true

theorem next_exists {o : Outcome} (h : endsIn o (fun _ => true) = true) : ∃ t, o = .next t :=
  (next_of_endsIn h).imp fun _ h => h.1

theorem witness_LoadWritesZerosFontThenImage :
    ((List.replicate 3584 0xFF : List Byte).length ≤ 3584 ∧ 4095 < 4096 ∧ 0x200 ≤ 4095 ∧ 4095 < 0x200 + 3584) ∧
    (([] : List Byte).length ≤ 3584 ∧ State.reset.cfg.fontBase.toNat ≤ 0x09F ∧ 0x09F < State.reset.cfg.fontBase.toNat + 80) ∧
    ¬ 0x0A0 < State.reset.cfg.fontBase.toNat + 80 := by decide +kernel

theorem witness_LoadResetsTheWholeCore : (List.replicate 3584 0xFF : List Byte).length ≤ 3584 := by decide +kernel

theorem witness_FailedLoadLeavesTheEngineIdle :
    3584 < (List.replicate 3585 0xFF : List Byte).length ∧ State.reset.cfg.loadFailResets = false ∧
    ({ State.reset with cfg := { Params.default with loadFailResets := true } } : State).cfg.loadFailResets = true := by
  decide +kernel

theorem witness_KeySetAndDirtyClearWriteOneBit : (0 : RegIdx) ≠ 15 := by decide

theorem witness_StepRunsTheDecodedInstruction :
    let s := (atPc 0xFFE).placeWord 0x6A05
    (s.run = .running ∧ s.pc.toNat + 1 < 4096 ∧
      decodeWord (s.peek s.pc.toNat ++ s.peek (s.pc.toNat + 1)) = .instr (.ldB 10 5)) ∧ ∃ t, exec (.ldB 10 5) s = .next t :=
  ⟨by decide +kernel, _, rfl⟩

theorem witness_OnlyALoadLeavesIdleOrHalted :
    State.powerOn.run = .idle ∧ (State.reset.illegalWord 0).run = .halted ∧
    (∃ t, State.powerOn.after (.keySet 3 true) = .next t) ∧ ∀ bytes, Transaction.keySet 3 true ≠ .load bytes :=
  ⟨rfl, rfl, ⟨_, rfl⟩, nofun⟩

theorem witness_FetchPastMemoryIsFatal :
    ((atPc 0xFFF).run = .running ∧ 4096 ≤ (atPc 0xFFF).pc.toNat + 1) ∧
    (atPc 0x1000).run = .running ∧ 4096 ≤ (atPc 0x1000).pc.toNat := by decide +kernel

theorem witness_UnrecognizedWordIsFatal :
    State.reset.run = .running ∧ State.reset.fetch = .ok 0x0000 ∧ decodeWord 0x0000 = .unrecognized := ⟨rfl, rfl, rfl⟩

theorem witness_ParkedStepOnlyTicksTheTimers :
    (State.reset.placeWord 0x1200).Parked ∧ ((atPc 0xFFE).placeWord 0x1FFE).Parked :=
  ⟨⟨rfl, by decide +kernel, rfl⟩, ⟨rfl, by decide +kernel, rfl⟩⟩

/-- A run of one step, of `JP 0x200` at 0x200. -/
theorem parkedRun (P : Instr → Prop) (hP : ¬ P (.jp 0x200)) (s : State) (hs : s.Parked) (hpc : s.pc = 0x200) :
    ∃ t, RunsWithout P 1 s t := by
  have hf : s.fetch = .ok 0x1200#16 := by rw [hs.2.2, hpc]; rfl
  have hx : step s = .next s.timerTick := by
    have he : exec (.jp 0x200) s = .next s := by
      show Host.Outcome.next { s with pc := 0x200 } = .next s
      rw [← hpc]
    simp only [step, hs.1, hf, show decodeWord 0x1200#16 = .instr (.jp 0x200) from rfl, he, State.endStep]
    rfl
  exact ⟨_, .succ hs.1 hf rfl hP hx hs.1 (.zero _)⟩

theorem witness_DelayTimerCountsSteps :
    ∃ t, RunsWithout (fun ins => ∃ x, ins = .ldDtX x) 1 (({ State.reset with dt := 1 } : State).placeWord 0x1200) t :=
  parkedRun _ (by rintro ⟨x, h⟩; cases h) _ ⟨rfl, by decide +kernel, rfl⟩ rfl

/-- Both cases of the beep: n = 1 and k = 1, and n = 2 and k = 1. -/
theorem witness_SoundTimerBeepsOnceWhenItRunsOut :
    (∃ t, RunsWithout (fun ins => ∃ x, ins = .ldStX x) 1 (({ State.reset with st := 1 } : State).placeWord 0x1200) t) ∧
    ∃ t, RunsWithout (fun ins => ∃ x, ins = .ldStX x) 1 (({ State.reset with st := 2 } : State).placeWord 0x1200) t :=
  ⟨parkedRun _ (by rintro ⟨x, h⟩; cases h) _ ⟨rfl, by decide +kernel, rfl⟩ rfl,
   parkedRun _ (by rintro ⟨x, h⟩; cases h) _ ⟨rfl, by decide +kernel, rfl⟩ rfl⟩

theorem witness_PlacedWordIsFetchedNext :
    0xFFFF < 2 ^ 16 ∧ (atPc 0xFFE).pc.toNat + 1 < 4096 ∧ (atPc 0xFFE).MemoryCanonical := by decide +kernel

theorem witness_EncodeOfDecodeIsTheWord :
    decodeWord 0xFF65 = .instr (.ldXMi 15) ∧ decodeWord 0x00E0 = .instr .cls := by decide

theorem witness_DecoderAgreesWithTheOpcodeMap :
    opcodeTable[0]? = some ⟨0xFFFF, 0x00E0⟩ ∧ opcodeTable[33]? = some ⟨0xF0FF, 0xF065⟩ := by decide

theorem witness_JumpGoesToItsTarget : (0xFFF : Addr).toNat = 0xFFF := by decide

/-- The sums 0xFFF, 0x1000 and 0x10FE. -/
theorem witness_OffsetJumpAddsV0 :
    endsIn (exec (.jpV0 0xFFE) (withRegs [(0, 1)])) (fun t => t.pc.toNat = 0xFFF) = true ∧
    endsIn (exec (.jpV0 0xFFF) (withRegs [(0, 1)])) (fun t => t.pc.toNat = 0x1000) = true ∧
    endsIn (exec (.jpV0 0xFFF) (withRegs [(0, 0xFF)])) (fun t => t.pc.toNat = 0x10FE) = true := by decide +kernel

theorem witness_CallPushesItsOwnAddress :
    State.reset.sp.val < 16 ∧ ({ State.reset with sp := 15 } : State).sp.val < 16 ∧
    ({ State.reset with sp := 16 } : State).sp.val = 16 := by decide

theorem witness_ReturnGoesPastTheCall :
    0 < ({ State.reset with sp := 1 } : State).sp.val ∧ 0 < ({ State.reset with sp := 16 } : State).sp.val ∧
    State.reset.sp.val = 0 := by decide

theorem witness_CallThenReturnComesBack :
    ({ State.reset with sp := 15 } : State).sp.val < 16 ∧
    ∃ t u : State, exec (.call 0x300) { State.reset with sp := 15 } = .next t ∧ u.sp = t.sp ∧ u.stack = t.stack :=
  ⟨by decide, _, _, rfl, rfl, rfl⟩

/-- A register equal to the byte, and one that is not, for R113 to R116. -/
theorem witness_Skips :
    (withRegs [(3, 0x42)]).reg 3 = 0x42 ∧ (withRegs [(3, 0x41)]).reg 3 ≠ 0x42 ∧
    (withRegs [(1, 7), (2, 7)]).reg 1 = (withRegs [(1, 7), (2, 7)]).reg 2 ∧
    (withRegs [(1, 7), (2, 8)]).reg 1 ≠ (withRegs [(1, 7), (2, 8)]).reg 2 ∧ (1 : Nibble) ≠ 0 ∧ (15 : Nibble) ≠ 0 := by
  decide +kernel

theorem witness_otherThanVF : (0 : RegIdx) ≠ vF ∧ (14 : RegIdx) ≠ vF := by decide

theorem witness_FlagRegisterAsOperand :
    (14 : RegIdx) ≠ vF ∧ State.reset.cfg.aluReadOrder = .sequential ∧ latched.cfg.aluReadOrder = .latched := by decide

theorem witness_FontPointerIsBasePlusFiveTimes : State.reset.cfg.fontBase = 0x050 := rfl

theorem witness_DecimalDigitsStored :
    (atI 0xFFD).MemoryCanonical ∧ (atI 0xFFD).i.toNat + 2 < 4096 ∧
    (atI 0xFFE).MemoryCanonical ∧ 4096 ≤ (atI 0xFFE).i.toNat + 2 ∧ 4096 ≤ (atI 0xFFFF).i.toNat + 2 := by decide +kernel

theorem witness_RegistersStored :
    (atI 0xFFF).MemoryCanonical ∧ (atI 0xFFF).i.toNat + (0 : RegIdx).val < 4096 ∧
    (atI 0xFF0).MemoryCanonical ∧ (atI 0xFF0).i.toNat + (15 : RegIdx).val < 4096 := by decide +kernel

theorem witness_RegistersLoaded :
    (atI 0xFFF).i.toNat + (0 : RegIdx).val < 4096 ∧ (atI 0xFF0).i.toNat + (15 : RegIdx).val < 4096 := by decide

theorem witness_StoreThenLoadRestoresRegisters :
    (atI 0xFF0).MemoryCanonical ∧ (atI 0xFF0).i.toNat + (15 : RegIdx).val < 4096 ∧
    ∃ t u : State, exec (.ldMiX 15) (atI 0xFF0) = .next t ∧ u.i = (atI 0xFF0).i ∧ ∀ a, u.peek a = t.peek a := by
  obtain ⟨t, ht⟩ := next_exists (o := exec (.ldMiX 15) (atI 0xFF0)) (by decide +kernel)
  exact ⟨by decide +kernel, by decide, t, { t with i := 0xFF0 }, ht, rfl, fun _ => rfl⟩

theorem witness_AddressPastMemoryIsFatal :
    (2 : Nibble) ≠ 0 ∧ 4096 < (atI 0xFFF).i.toNat + (2 : Nibble).toNat ∧
    4096 ≤ (atI 0xFFF).i.toNat + (1 : RegIdx).val ∧ 4096 ≤ (atI 0x1000).i.toNat + (0 : RegIdx).val := by decide

theorem witness_StoreIsSeenByTheNextFetch :
    let s : State := { State.reset with pc := 0x206, i := 0x208 }
    (0 : RegIdx).val + 1 ≤ (1 : RegIdx).val ∧ s.MemoryCanonical ∧ s.i.toNat + (1 : RegIdx).val < 4096 ∧
    s.i.toNat + (0 : RegIdx).val = s.pc.toNat + 2 := by decide +kernel

/-- n = 0 with I past memory, and n = 15 up to the last byte; a covered cell that is set, and none that is. -/
theorem witness_SpriteIsXoredWithCollision :
    ((0 : Nibble) = 0 ∨ (atI 0xFFFF).i.toNat + (0 : Nibble).toNat ≤ 4096) ∧
    ((15 : Nibble) = 0 ∨ (atI 0xFF1).i.toNat + (15 : Nibble).toNat ≤ 4096) ∧
    (∃ px py, SpriteCovers [0x80] 0 0 px py ∧ (State.reset.fb.toggle 0 0).cell px py = true) ∧
    ¬ ∃ px py, SpriteCovers [] 0 0 px py ∧ State.reset.fb.cell px py = true := by
  refine ⟨.inl rfl, .inr (by decide), ⟨0, 0, ⟨0, by decide, 0, by decide, by decide, rfl, rfl⟩, by decide +kernel⟩, ?_⟩
  rintro ⟨_, _, ⟨_, h, _⟩, _⟩
  exact absurd h (Nat.not_lt_zero _)

theorem witness_DrawingTwiceRestoresTheScreen :
    let s := withRegs [(1, 3)] (atI 0x050)
    ((5 : Nibble) = 0 ∨ s.i.toNat + (5 : Nibble).toNat ≤ 4096) ∧
    ∃ t u : State, exec (.drw 0 1 5) s = .next t ∧ u.fb = t.fb ∧ u.i = s.i ∧ u.reg 0 = s.reg 0 ∧ u.reg 1 = s.reg 1 ∧
      ∀ a, u.peek a = s.peek a := by
  obtain ⟨t, ht⟩ := next_exists (o := exec (.drw 0 1 5) (withRegs [(1, 3)] (atI 0x050))) (by decide +kernel)
  exact ⟨.inr (by decide), t, { withRegs [(1, 3)] (atI 0x050) with fb := t.fb }, ht, rfl, rfl, rfl, rfl, fun _ => rfl⟩

theorem witness_SkipsOnAKey :
    ((withRegs [(5, 15)]).reg 5).toNat ≤ 15 ∧ (15 : RegIdx).val = ((withRegs [(5, 15)]).reg 5).toNat % 16 ∧
    masked.cfg.keyIndexPolicy = .mask ∧
    15 < ((withRegs [(5, 16)]).reg 5).toNat ∧ (withRegs [(5, 16)]).cfg.keyIndexPolicy = .fault := by decide +kernel

theorem witness_KeyWait :
    (∀ k : RegIdx, State.reset.key[k] = false) ∧
    ((keyDown 0).key[(0 : RegIdx)] = true ∧ ∀ j : RegIdx, j < 0 → (keyDown 0).key[j] = false) ∧
    (keyDown 15).key[(15 : RegIdx)] = true ∧ ∀ j : RegIdx, j < 15 → (keyDown 15).key[j] = false := by decide +kernel

theorem witness_TimersWritten : State.reset.run = .running := rfl

theorem witness_OnlyTwoInstructionsWriteMemory :
    endsIn (exec (.ldBX 0) (withRegs [(0, 123)] (atI 0xFFD))) (fun t => t.peek 0xFFF ≠ (atI 0xFFD).peek 0xFFF) = true ∧
    endsIn (exec (.ldMiX 1) (withRegs [(1, 7)] (atI 0xFFE))) (fun t => t.peek 0xFFF ≠ (atI 0xFFE).peek 0xFFF) = true := by
  decide +kernel

/-- A next state of `LD V3, 7`, which is none of the instructions the statements of R24, R30, R31, R34, R182 set apart. -/
theorem witness_wholeMachineRules :
    (∃ t, exec (.ldB 3 7) State.reset = .next t) ∧ (14 : RegIdx) ∉ mayWrite (.ldB 3 7) ∧
    (∀ x, Instr.ldB 3 7 ≠ .ldDtX x) ∧ (∀ x, Instr.ldB 3 7 ≠ .ldStX x) ∧ Instr.ldB 3 7 ≠ .ret ∧
    (∀ nnn, Instr.ldB 3 7 ≠ .call nnn) ∧ Instr.ldB 3 7 ≠ .cls ∧ (∀ x y n, Instr.ldB 3 7 ≠ .drw x y n) ∧
    ∀ x, Instr.ldB 3 7 ≠ .skp x ∧ Instr.ldB 3 7 ≠ .sknp x ∧ Instr.ldB 3 7 ≠ .ldXK x :=
  ⟨⟨_, rfl⟩, by decide, nofun, nofun, nofun, nofun, nofun, nofun, fun _ => ⟨nofun, nofun, nofun⟩⟩

theorem witness_indexWritten : ∃ t, exec (.ldI 0x300) State.reset = .next t ∧ t.i ≠ State.reset.i :=
  ⟨_, rfl, by decide⟩

theorem witness_OnlyEightInstructionsCanRaise :
    ∃ t, exec .ret State.reset = .next t ∧ State.reset.run ≠ .halted ∧ t.run = .halted := ⟨_, rfl, nofun, rfl⟩

/-- Two states whose stacks differ above SP, and a CALL from the first. -/
theorem witness_StaleStackEntriesAreUnobservable :
    SameButStaleStack { State.reset with sp := 1 } { State.reset with sp := 1, stack := State.reset.stack.set 1 0x204 } ∧
    ∃ t, exec (.call 0x300) { State.reset with sp := 1 } = .next t := ⟨⟨rfl, by decide +kernel⟩, _, rfl⟩

/-- The three kinds of record: a word that matches no row, a fetch past memory, and an instruction's own condition, one
witness for each way to raise, at the ends of their ranges. -/
theorem witness_FatalStepsArePrecise :
    let halts (s : State) : Prop := s.run = .running ∧ ∃ t, step s = .next t ∧ t.run = .halted
    halts State.reset ∧ halts (atPc 0xFFF) ∧ halts (atPc 0x1000) ∧ halts (State.reset.placeWord 0x00EE) ∧
    halts (({ State.reset with sp := 16 } : State).placeWord 0x2300) ∧
    halts ((withRegs [(5, 16)]).placeWord 0xE59E) ∧ halts ((atI 0xFFF).placeWord 0xF155) := by
  have h : ∀ s : State, s.run = .running → endsIn (step s) (fun t => t.run = .halted) = true →
      s.run = .running ∧ ∃ t, step s = .next t ∧ t.run = .halted := fun s hr hs =>
    ⟨hr, (next_of_endsIn hs).imp fun _ h => ⟨h.1, of_decide_eq_true h.2⟩⟩
  exact ⟨h _ rfl (by decide +kernel), h _ rfl (by decide +kernel), h _ rfl (by decide +kernel),
    h _ rfl (by decide +kernel), h _ rfl (by decide +kernel), h _ rfl (by decide +kernel), h _ rfl (by decide +kernel)⟩

/-- Every row of R220's table for an instruction is met by some state. -/
theorem witness_RaisedBy :
    RaisedBy State.reset .ret .stackUnderflow none ∧
    RaisedBy { State.reset with sp := 16 } (.call 0x300) .stackOverflow none ∧
    RaisedBy (withRegs [(5, 16)]) (.skp 5) .outOfBoundsAccess (some 16) ∧
    RaisedBy (atI 0xFFF) (.ldMiX 1) .outOfBoundsAccess (some 0x1000) :=
  ⟨.emptyStack rfl, .fullStack _ rfl, .keyTooLarge 5 (.inl rfl) rfl (by decide +kernel),
   .pastMemory (by decide) (by decide) (by decide) fun b _ h => h⟩

theorem witness_InvariantsHoldAtTheStart :
    State.reset ∈ [{ State.reset with cfg := Params.default }, { State.powerOn with cfg := Params.default }] :=
  List.mem_cons_self

/-- The premises of the three invariants: they hold at reset, and each transaction answers a next state there. -/
theorem witness_Invariants :
    (State.reset.MemoryCanonical ∧ State.reset.FaultConsistent ∧ State.reset.PcBounded) ∧
    (∃ t, State.reset.after .step = .next t) ∧ (∃ t, State.reset.after (.load [0x12]) = .next t) ∧
    (∃ t, State.reset.after (.keySet 0 true) = .next t) ∧ ∃ t, State.reset.after .dirtyClear = .next t :=
  ⟨by decide +kernel, next_exists (by decide +kernel), ⟨_, rfl⟩, ⟨_, rfl⟩, ⟨_, rfl⟩⟩

end Sys2Proof.Tests
end

section
/-! PROOFS. What memory holds after a load (20_memory.md R56). -/

namespace Sys2Proof.Machine

/-- What any address reads as after the bytes `bs` are written from address a on. -/
theorem State.peek_pokes {s : State} (hs : Memory.wf s.cfg.resetByte s.mem) {a : Nat} {bs : List Byte}
    (ha : a + bs.length ≤ Config.memSize) (c : Nat) :
    (s.pokes a bs).peek c = if a ≤ c ∧ c < a + bs.length then bs.getD (c - a) 0 else s.peek c := by
  split
  · next h =>
    obtain ⟨k, rfl⟩ := Nat.exists_eq_add_of_le h.1
    have hk : k < bs.length := by omega
    simp [State.peek_pokes_same bs s hs a ha k hk, hk]
  · next h => exact State.peek_pokes_other bs s a c (by omega)

/-- A restart's memory is the image over the reset contents. -/
theorem State.peek_restart (s : State) {bytes : List Byte} (h : bytes.length ≤ Config.progCapacity) (a : Nat) :
    (s.restart bytes).peek a =
      if Config.progBase ≤ a ∧ a < Config.progBase + bytes.length then bytes.getD (a - Config.progBase) 0
      else s.cfg.resetByte a :=
  State.peek_pokes Memory.nil_wf (Nat.add_le_of_le_sub' (by decide) h) a

/-- A load within the capacity is a restart. -/
theorem State.load_of_le_capacity (s : State) {bytes : List Byte} (h : bytes.length ≤ Config.progCapacity) :
    s.load bytes = (.ok, s.restart bytes) := if_neg (Nat.not_lt.2 h)

/-- Settles O2: a load that fits is a restart, whose image lies over the reset contents: the font table over zeros. -/
theorem loadWritesZerosFontThenImage : Obligations.LoadWritesZerosFontThenImage := by
  intro s bytes hfits a _
  rw [State.load_of_le_capacity s hfits]
  exact State.peek_restart s hfits a

end Sys2Proof.Machine
end

section
/-! PROOFS. The fields of an instruction word as arithmetic on the word (30_encoding.md R71 to R76). -/

namespace Sys2Proof

/-- The word's `len` bits from bit `lo` on: every field of R71 to R76 is such a slice. -/
theorem Word.toNat_slice (op : Word) (lo len : Nat) :
    (op.extractLsb' lo len).toNat = op.toNat / 2 ^ lo % 2 ^ len := by
  rw [BitVec.extractLsb'_toNat, Nat.shiftRight_eq_div_pow]

/-- A slice from bit 0 needs no shift. -/
theorem Word.toNat_lowSlice (op : Word) (len : Nat) : (op.extractLsb' 0 len).toNat = op.toNat % 2 ^ len := by
  rw [Word.toNat_slice, Nat.pow_zero, Nat.div_one]

theorem fieldX_val (op : Word) : (fieldX op).val = op.toNat / 0x100 % 0x10 := op.toNat_slice 8 4

theorem fieldY_val (op : Word) : (fieldY op).val = op.toNat / 0x10 % 0x10 := op.toNat_slice 4 4

theorem fieldN_toNat (op : Word) : (fieldN op).toNat = op.toNat % 0x10 := op.toNat_lowSlice 4

theorem fieldNN_toNat (op : Word) : (fieldNN op).toNat = op.toNat % 0x100 := op.toNat_lowSlice 8

theorem fieldNNN_toNat (op : Word) : (fieldNNN op).toNat = op.toNat % 0x1000 := op.toNat_lowSlice 12

/-- The class is the top slice, so a word's 16-bit bound leaves nothing above it to cut off. -/
theorem opClass_toNat (op : Word) : (opClass op).toNat = op.toNat / 0x1000 := by
  have hslice : (opClass op).toNat = op.toNat / 0x1000 % 0x10 := op.toNat_slice 12 4
  have hbound : op.toNat < 0x10000 := op.isLt
  omega

/-- Settles O16: each field's slice of the word, in the statement's order. -/
theorem fieldsAreTheirBits : Obligations.FieldsAreTheirBits := fun op =>
  ⟨fieldX_val op, fieldY_val op, fieldN_toNat op, fieldNN_toNat op, fieldNNN_toNat op, opClass_toNat op⟩

end Sys2Proof
end

section
/-! PROOFS. The step at a word that matches no row of the opcode map (40_cycle.md R93). -/

namespace Sys2Proof.Machine

/-- R93 through the cycle of R90: the step raises at the decode, before anything executes or ticks. -/
theorem step_of_decodeWord_unrecognized {s : State} {op : Word} (hrun : s.run = .running) (hfetch : s.fetch = .ok op)
    (hdecode : decodeWord op = .unrecognized) : step s = .next (s.illegalWord op) := by
  simp only [step, hrun, hfetch, hdecode]

/-- The whole of what raising R93's condition writes (R221): RUN and FAULT. -/
theorem State.illegalWord_eq (s : State) (op : Word) :
    s.illegalWord op = { s with
      run := .halted
      fault := some { kind := .unrecognizedInstruction, pc := s.pc, opcode := some op, addr := none } } := rfl

/-- Settles O10: the step raises at the decode, and raising writes RUN and FAULT alone. -/
theorem unrecognizedWordIsFatal : Obligations.UnrecognizedWordIsFatal := by
  intro s op hrun hfetch hdecode
  rw [step_of_decodeWord_unrecognized hrun hfetch hdecode, State.illegalWord_eq]

end Sys2Proof.Machine
end

section
/-! PROOFS. The words the statements are made in: an instruction's encoding (30_encoding.md R78, R79) and what it leaves
unchanged. -/

namespace Sys2Proof.Claims

open Sys2Proof.Machine

/-- The word's number and the decoder's answer on the word itself are all there is to an encoding. -/
theorem EncodedAs.of_encode {ins : Instr} {w : Nat} (hword : (encode ins).toNat = w)
    (hdecode : decodeWord (encode ins) = .instr ins) : EncodedAs ins w := by
  refine ⟨hword, ?_⟩
  rw [← hword, BitVec.ofNat_toNat, BitVec.setWidth_eq, hdecode]

theorem Unchanged.refl (fp : Footprint) (s : State) : Unchanged fp s s := by
  constructor <;> simp

/-- A footprint leaves PC out, so a PC outcome adds nothing to what changed. -/
theorem Unchanged.applyOutcome {fp : Footprint} {s t : State} (h : Unchanged fp s t) (o : PcOutcome) :
    Unchanged fp s (t.applyOutcome o) where
  regs j hj := (State.reg_congr (by simp) j).trans (h.regs j hj)
  i hi := by simpa using h.i hi
  stack hs := by simpa using h.stack hs
  delay hd := by simpa using h.delay hd
  sound hs := by simpa using h.sound hs
  display hd := by simpa using h.display hd
  draws hd := by simpa using h.draws hd
  memory a ha := (State.peek_congr (by simp) (by simp) a).trans (h.memory a ha)
  key := by simpa using h.key
  run := by simpa using h.run
  fault := by simpa using h.fault
  beeps := by simpa using h.beeps
  cfg := by simpa using h.cfg

end Sys2Proof.Claims
end

section
/-! PROOFS. Jumps and calls (41_control_flow.md R111, R112). -/

namespace Sys2Proof.Machine

open Sys2Proof.Claims

theorem exec_jp (nnn : Addr) (s : State) :
    exec (.jp nnn) s = .next (s.applyOutcome (.goto (nnn.setWidth 16))) := rfl

theorem encodedAs_jp (nnn : Addr) : EncodedAs (.jp nnn) (0x1000 + nnn.toNat) :=
  .of_encode (formatA_toNat 0x1#4 nnn)
    (by simp only [encode, decodeWord, opClass_formatA, fieldNNN_formatA])

theorem encodedAs_call (nnn : Addr) : EncodedAs (.call nnn) (0x2000 + nnn.toNat) :=
  .of_encode (formatA_toNat 0x2#4 nnn)
    (by simp only [encode, decodeWord, opClass_formatA, fieldNNN_formatA])

/-- An address field keeps its value when it is widened to a PC (R111). -/
theorem toNat_setWidth_addr (nnn : Addr) : (nnn.setWidth 16).toNat = nnn.toNat :=
  BitVec.toNat_setWidth_of_le (by decide)

/-- The last byte of memory holds no whole word: the fetch there fails at the byte after it (R91). -/
theorem State.fetch_of_pc_eq_last {s : State} (hpc : s.pc.toNat = 0xFFF) : s.fetch = .error 0x1000 := by
  rcases s.fetch_cases with ⟨hfits, -⟩ | ⟨-, hfetch⟩
  · omega
  · rw [hfetch, hpc]
    rfl

/-- Settles O21: the jump is its PC outcome alone, and a PC of 0xFFF leaves only one byte to fetch. -/
theorem jumpGoesToItsTarget : Obligations.JumpGoesToItsTarget := fun nnn =>
  ⟨encodedAs_jp nnn, fun s =>
    ⟨_, exec_jp nnn s, rfl, toNat_setWidth_addr nnn, (Unchanged.refl _ s).applyOutcome _, fun hlast =>
      State.fetch_of_pc_eq_last ((toNat_setWidth_addr nnn).trans hlast)⟩⟩

/-- CALL with a free entry is the push of its own PC and the jump. -/
theorem exec_call_of_push_eq_some {nnn : Addr} {s u : State} (hpush : s.push s.pc = some u) :
    exec (.call nnn) s = .next (u.applyOutcome (.goto (nnn.setWidth 16))) := by
  simp only [exec, execCall, hpush, complete]

theorem exec_call_of_push_eq_none {nnn : Addr} {s : State} (hpush : s.push s.pc = none) :
    exec (.call nnn) s = raise (.call nnn) .stackOverflow none s := by
  simp only [exec, execCall, hpush]

/-- Everything a push that finds a free entry does: the entry at SP, and SP (R29). -/
theorem State.push_of_lt {s : State} (ra : Word) (h : s.sp.val < 16) :
    ∃ u, s.push ra = some u ∧ u.stack[s.sp.val] = ra ∧
      (∀ j : Fin 16, j.val ≠ s.sp.val → u.stack[j] = s.stack[j]) ∧ u.sp.val = s.sp.val + 1 ∧
      Unchanged { stack := true } s u := by
  rcases s.push_cases ra with ⟨_, hpush⟩ | ⟨hfull, -⟩
  · refine ⟨_, hpush, by simp, fun j hj => ?_, rfl, ?_⟩
    · simp [Vector.getElem_set_ne _ _ hj.symm]
    · constructor <;> simp [State.reg, State.peek]
  · omega

theorem State.push_of_full {s : State} (ra : Word) (h : s.sp.val = 16) : s.push ra = none := by
  rcases s.push_cases ra with ⟨hlt, -⟩ | ⟨-, hpush⟩
  · omega
  · exact hpush

/-- Settles O23: the push answers by SP, and the jump after it adds only PC. -/
theorem callPushesItsOwnAddress : Obligations.CallPushesItsOwnAddress := by
  refine fun nnn => ⟨encodedAs_call nnn, fun s => ⟨fun hfree => ?_, fun hfull => ?_⟩⟩
  · obtain ⟨u, hpush, htop, hrest, hsp, hframe⟩ := State.push_of_lt s.pc hfree
    exact ⟨_, exec_call_of_push_eq_some hpush, htop, hrest, hsp, rfl, hframe.applyOutcome _⟩
  · exact exec_call_of_push_eq_none (State.push_of_full s.pc hfull)

end Sys2Proof.Machine
end

section
/-! PROOFS. Skips on an immediate (41_control_flow.md R113, R114). -/

namespace Sys2Proof.Machine

open Sys2Proof.Claims

/-- A skip is its PC outcome alone, chosen by the test; it reads no memory, so the skipped word plays no part. -/
theorem skipIf_eq (c : Bool) (s : State) : skipIf c s = .next (s.applyOutcome (if c then .skip else .next)) := rfl

theorem skipsWhen_of_exec_eq_skipIf {ins : Instr} {cond : State → Prop} {test : State → Bool}
    (hexec : ∀ s, exec ins s = skipIf (test s) s) (htest : ∀ s, test s = true ↔ cond s) : SkipsWhen ins cond := by
  intro s
  refine ⟨_, (hexec s).trans (skipIf_eq _ s), fun hcond => ?_, fun hcond => ?_, (Unchanged.refl _ s).applyOutcome _⟩
  · rw [if_pos ((htest s).2 hcond), State.applyOutcome_skip_pc]
  · rw [if_neg (mt (htest s).1 hcond), State.applyOutcome_next_pc]

theorem skipsWhen_seB (x : RegIdx) (nn : Byte) : SkipsWhen (.seB x nn) (fun s => s.reg x = nn) :=
  skipsWhen_of_exec_eq_skipIf (fun _ => rfl) fun _ => beq_iff_eq

theorem skipsWhen_sneB (x : RegIdx) (nn : Byte) : SkipsWhen (.sneB x nn) (fun s => s.reg x ≠ nn) :=
  skipsWhen_of_exec_eq_skipIf (fun _ => rfl) fun _ => bne_iff_ne

theorem encodedAs_seB (x : RegIdx) (nn : Byte) : EncodedAs (.seB x nn) (0x3000 + 0x100 * x.val + nn.toNat) :=
  .of_encode (formatXB_toNat 0x3#4 x nn)
    (by simp only [encode, decodeWord, opClass_formatXB, fieldX_formatXB, fieldNN_formatXB])

theorem encodedAs_sneB (x : RegIdx) (nn : Byte) : EncodedAs (.sneB x nn) (0x4000 + 0x100 * x.val + nn.toNat) :=
  .of_encode (formatXB_toNat 0x4#4 x nn)
    (by simp only [encode, decodeWord, opClass_formatXB, fieldX_formatXB, fieldNN_formatXB])

/-- Settles O26: each word's encoding and the skip on its test. -/
theorem skipsOnAnImmediate : Obligations.SkipsOnAnImmediate := fun x nn =>
  ⟨encodedAs_seB x nn, skipsWhen_seB x nn, encodedAs_sneB x nn, skipsWhen_sneB x nn⟩

end Sys2Proof.Machine
end

section
/-! PROOFS. What a write to a register adds to what changed, and the encodings of the ALU class and of the one-register
class (30_encoding.md R78, R79). -/

namespace Sys2Proof.Claims

open Sys2Proof.Machine

/-- A write to a register of the footprint stays inside it. -/
theorem Unchanged.setReg {fp : Footprint} {s t : State} {x : RegIdx} (h : Unchanged fp s t) (hx : x ∈ fp.regs)
    (b : Byte) : Unchanged fp s (t.setReg x b) :=
  { h with
    regs := fun j hj => by
      have hne : j ≠ x := fun heq => hj (heq ▸ hx)
      rw [State.reg_setReg, if_neg hne, h.regs j hj] }

/-- A flag write is a write to VF. -/
theorem Unchanged.setFlag {fp : Footprint} {s t : State} (h : Unchanged fp s t) (hF : vF ∈ fp.regs) (f : Bool) :
    Unchanged fp s (t.setFlag f) := h.setReg hF (flagByte f)

/-- An instruction whose effect is one register write writes that register and nothing else. -/
theorem writesRegister_of_exec_eq_setReg {ins : Instr} {x : RegIdx} {value : State → Byte}
    (hexec : ∀ s, exec ins s = complete .next (s.setReg x (value s))) : WritesRegister ins x value := by
  intro s
  refine ⟨_, hexec s, ?_, rfl, ((Unchanged.refl _ s).setReg (List.mem_singleton_self x) _).applyOutcome _⟩
  rw [State.reg_congr (State.applyOutcome_v _ _), State.reg_setReg, if_pos rfl]

/-- Class 0x8 decodes by its selector, which is the word's last digit. -/
theorem encodedAs_of_class8 {ins : Instr} {x y : RegIdx} {n : Nibble} (hencode : encode ins = formatXYN 0x8#4 x y n)
    (hdecode : decodeClass8 x y n = .instr ins) :
    EncodedAs ins (0x8000 + n.toNat + 0x100 * x.val + 0x10 * y.val) := by
  refine .of_encode ?_ ?_ <;> rw [hencode]
  · rw [formatXYN_toNat, BitVec.toNat_ofNat]
    omega
  · simp only [decodeWord, opClass_formatXYN, fieldX_formatXYN, fieldY_formatXYN, fieldN_formatXYN, hdecode]

/-- Class 0xF decodes by its selector, which is the word's low byte. -/
theorem encodedAs_of_classF {ins : Instr} {x : RegIdx} {sel : Byte} (hencode : encode ins = formatXB 0xF#4 x sel)
    (hdecode : decodeClassF x sel = .instr ins) : EncodedAs ins (0xF000 + sel.toNat + 0x100 * x.val) := by
  refine .of_encode ?_ ?_ <;> rw [hencode]
  · rw [formatXB_toNat, BitVec.toNat_ofNat]
    omega
  · simp only [decodeWord, opClass_formatXB, fieldX_formatXB, fieldNN_formatXB, hdecode]

end Sys2Proof.Claims
end

section
/-! PROOFS. Loads and the immediate addition (42_alu.md R133 to R135, 43_index_memory.md R160, 45_keys_timers.md
R203). -/

namespace Sys2Proof.Machine

open Sys2Proof.Claims

theorem encodedAs_ldB (x : RegIdx) (nn : Byte) : EncodedAs (.ldB x nn) (0x6000 + 0x100 * x.val + nn.toNat) :=
  .of_encode (formatXB_toNat 0x6#4 x nn)
    (by simp only [encode, decodeWord, opClass_formatXB, fieldX_formatXB, fieldNN_formatXB])

theorem encodedAs_addB (x : RegIdx) (nn : Byte) : EncodedAs (.addB x nn) (0x7000 + 0x100 * x.val + nn.toNat) :=
  .of_encode (formatXB_toNat 0x7#4 x nn)
    (by simp only [encode, decodeWord, opClass_formatXB, fieldX_formatXB, fieldNN_formatXB])

theorem encodedAs_ldI (nnn : Addr) : EncodedAs (.ldI nnn) (0xA000 + nnn.toNat) :=
  .of_encode (formatA_toNat 0xA#4 nnn)
    (by simp only [encode, decodeWord, opClass_formatA, fieldNNN_formatA])

theorem encodedAs_ldR (x y : RegIdx) : EncodedAs (.ldR x y) (0x8000 + 0x100 * x.val + 0x10 * y.val) :=
  encodedAs_of_class8 (n := 0x0#4) rfl rfl

theorem encodedAs_ldXDt (x : RegIdx) : EncodedAs (.ldXDt x) (0xF007 + 0x100 * x.val) :=
  encodedAs_of_classF (sel := 0x07#8) rfl rfl

theorem writesRegister_ldB (x : RegIdx) (nn : Byte) : WritesRegister (.ldB x nn) x (fun _ => nn) :=
  writesRegister_of_exec_eq_setReg fun _ => rfl

/-- Byte addition is the sum of the values reduced modulo 256 (R131). -/
theorem byte_add_eq_ofNat_mod (a b : Byte) : a + b = BitVec.ofNat 8 ((a.toNat + b.toNat) % 256) :=
  BitVec.eq_of_toNat_eq (by simp)

theorem writesRegister_addB (x : RegIdx) (nn : Byte) :
    WritesRegister (.addB x nn) x (fun s => BitVec.ofNat 8 (((s.reg x).toNat + nn.toNat) % 256)) := by
  refine writesRegister_of_exec_eq_setReg fun s => ?_
  rw [← byte_add_eq_ofNat_mod]
  rfl

theorem writesRegister_ldR (x y : RegIdx) : WritesRegister (.ldR x y) x (fun s => s.reg y) :=
  writesRegister_of_exec_eq_setReg fun _ => rfl

theorem writesRegister_ldXDt (x : RegIdx) : WritesRegister (.ldXDt x) x (fun s => s.dt) :=
  writesRegister_of_exec_eq_setReg fun _ => rfl

/-- A write to I stays inside a footprint that allows it. -/
theorem unchanged_setIndex (s : State) (w : Word) : Unchanged { i := true } s { s with i := w } :=
  { Unchanged.refl { i := true } s with i := nofun }

theorem exec_ldI (nnn : Addr) (s : State) :
    exec (.ldI nnn) s = complete .next { s with i := nnn.setWidth 16 } := rfl

/-- Settles O28: each word's encoding and the one write of each instruction. -/
theorem loadsAndAddImmediate : Obligations.LoadsAndAddImmediate :=
  ⟨fun x nn => ⟨encodedAs_ldB x nn, writesRegister_ldB x nn, encodedAs_addB x nn, writesRegister_addB x nn⟩,
   fun x y => ⟨encodedAs_ldR x y, writesRegister_ldR x y⟩,
   fun nnn => ⟨encodedAs_ldI nnn, fun s =>
    ⟨_, exec_ldI nnn s, toNat_setWidth_addr nnn, rfl, (unchanged_setIndex s _).applyOutcome _⟩⟩,
   fun x => ⟨encodedAs_ldXDt x, writesRegister_ldXDt x⟩⟩

end Sys2Proof.Machine
end

section
/-! PROOFS. Addition with the carry out in VF (42_alu.md R139). -/

namespace Sys2Proof.Machine

open Sys2Proof.Claims

theorem encodedAs_addR (x y : RegIdx) : EncodedAs (.addR x y) (0x8004 + 0x100 * x.val + 0x10 * y.val) :=
  encodedAs_of_class8 (n := 0x4#4) rfl rfl

/-- The flag of 8XY4 as R139 spells it. -/
theorem flagByte_carryOut (a b : Byte) : flagByte (carryOut a b) = if a.toNat + b.toNat > 255 then 1 else 0 := by
  simp only [flagByte, carryOut, decide_eq_true_eq]

/-- 8XY4 reads both operands before it writes, and writes VF last, so ALU_READ_ORDER plays no part. -/
theorem exec_addR (x y : RegIdx) (s : State) :
    exec (.addR x y) s =
      complete .next ((s.setReg x (s.reg x + s.reg y)).setFlag (carryOut (s.reg x) (s.reg y))) := rfl

/-- Settles O30: the sum survives the flag write unless x = F, and the flag write, the last, is what VF holds. -/
theorem addWithCarryOut : Obligations.AddWithCarryOut := by
  refine fun x y => ⟨encodedAs_addR x y, fun s => ⟨_, exec_addR x y s, fun hx => ?_, ?_, rfl, ?_⟩⟩
  · rw [State.reg_congr (State.applyOutcome_v _ _), State.reg_setFlag, if_neg hx, State.reg_setReg, if_pos rfl,
      BitVec.toNat_add]
  · rw [State.reg_congr (State.applyOutcome_v _ _), State.reg_setFlag, if_pos rfl, flagByte_carryOut]
  · have hsum := (Unchanged.refl { regs := [x, vF] } s).setReg (x := x) (by simp) (s.reg x + s.reg y)
    exact (hsum.setFlag (by simp) _).applyOutcome _

end Sys2Proof.Machine
end

section
/-! PROOFS. Clearing the screen (44_display.md R180). -/

namespace Sys2Proof.Machine

open Sys2Proof.Claims

/-- The one word of class 0x0 that R180 names: it has no operand, so its encoding is a closed fact. -/
theorem encodedAs_cls : EncodedAs .cls 0x00E0 := .of_encode rfl rfl

theorem exec_cls (s : State) :
    exec .cls s = complete .next { s with fb := Framebuffer.clear, dirty := true } := rfl

/-- A write to the framebuffer and DIRTY stays inside a footprint that allows the display. -/
theorem unchanged_setDisplay (s : State) (fb : Framebuffer) (dirty : Bool) :
    Unchanged { display := true } s { s with fb := fb, dirty := dirty } :=
  { Unchanged.refl { display := true } s with display := nofun }

/-- Settles O43: the display write is all CLS does before its PC outcome, and it reads neither the old framebuffer nor
DIRTY. -/
theorem clearScreen : Obligations.ClearScreen := by
  refine ⟨encodedAs_cls, fun s => ⟨_, exec_cls s, fun px py => ?_, rfl, rfl, ?_⟩⟩
  · rw [State.applyOutcome_fb, Framebuffer.cell_clear]
  · exact (unchanged_setDisplay s Framebuffer.clear true).applyOutcome .next

end Sys2Proof.Machine
end

section
/-! PROOFS. The decoder and the encoder are inverse to each other (30_encoding.md sections 1 to 4). -/

namespace Sys2Proof

/-! ## From an instruction to its word and back -/

/-- Every instruction decodes from its own word: its format's fields are the ones the decoder takes out of it. -/
theorem decodeWord_encode (ins : Instr) : decodeWord (encode ins) = .instr ins := by
  cases ins with
  | cls | ret => rfl
  | jp _ | call _ | ldI _ | jpV0 _ =>
    simp only [encode, decodeWord, opClass_formatA, fieldNNN_formatA]
  | seB _ _ | sneB _ _ | ldB _ _ | addB _ _ | rnd _ _ =>
    simp only [encode, decodeWord, opClass_formatXB, fieldX_formatXB, fieldNN_formatXB]
  | skp _ | sknp _ =>
    simp only [encode, decodeWord, decodeClassE, opClass_formatXB, fieldX_formatXB, fieldNN_formatXB]
  | ldXDt _ | ldXK _ | ldDtX _ | ldStX _ | addI _ | ldF _ | ldBX _ | ldMiX _ | ldXMi _ =>
    simp only [encode, decodeWord, decodeClassF, opClass_formatXB, fieldX_formatXB, fieldNN_formatXB]
  | seR _ _ | sneR _ _ =>
    simp only [encode, decodeWord, opClass_formatXYN, fieldX_formatXYN, fieldY_formatXYN, fieldN_formatXYN]
    rfl
  | drw _ _ _ =>
    simp only [encode, decodeWord, opClass_formatXYN, fieldX_formatXYN, fieldY_formatXYN, fieldN_formatXYN]
  | ldR _ _ | orR _ _ | andR _ _ | xorR _ _ | addR _ _ | sub _ _ | shr _ _ | subn _ _ | shl _ _ =>
    simp only [encode, decodeWord, decodeClass8, opClass_formatXYN, fieldX_formatXYN, fieldY_formatXYN,
      fieldN_formatXYN]

/-- The host's table word is decoded from the two bytes memory would hold (R58). -/
theorem decodeTableWord_toNat {w : Word} {ins : Instr} (h : decodeWord w = .instr ins) :
    decodeTableWord 16 w.toNat = some ins := by
  have hbytes : decodeBytes (bytesOfWord w) = some (.instr ins, []) := h ▸ decodeBytes_bytesOfWord w []
  simp [decodeTableWord, w.isLt, hbytes]

/-- Settles O17: the word decodes by its format's fields, and the host's table word is decoded from that word's bytes.
-/
theorem decodeOfEncodeIsTheInstruction : Obligations.DecodeOfEncodeIsTheInstruction := fun ins =>
  ⟨decodeWord_encode ins, decodeTableWord_toNat (decodeWord_encode ins)⟩

/-! ## From a word to its instruction and back: each format puts a word together again from its fields -/

theorem formatA_fields (op : Word) : formatA (opClass op) (fieldNNN op) = op := by
  apply BitVec.eq_of_toNat_eq
  rw [formatA_toNat, opClass_toNat, fieldNNN_toNat]
  omega

theorem formatXB_fields (op : Word) : formatXB (opClass op) (fieldX op) (fieldNN op) = op := by
  apply BitVec.eq_of_toNat_eq
  rw [formatXB_toNat, opClass_toNat, fieldX_val, fieldNN_toNat]
  omega

theorem formatXYN_fields (op : Word) : formatXYN (opClass op) (fieldX op) (fieldY op) (fieldN op) = op := by
  apply BitVec.eq_of_toNat_eq
  rw [formatXYN_toNat, opClass_toNat, fieldX_val, fieldY_val, fieldN_toNat]
  omega

theorem encode_of_decodeClass8 {x y : RegIdx} {n : Nibble} {ins : Instr} (h : decodeClass8 x y n = .instr ins) :
    encode ins = formatXYN 0x8#4 x y n := by
  unfold decodeClass8 at h
  split at h <;> cases h <;> rfl

theorem encode_of_decodeClassE {x : RegIdx} {nn : Byte} {ins : Instr} (h : decodeClassE x nn = .instr ins) :
    encode ins = formatXB 0xE#4 x nn := by
  unfold decodeClassE at h
  split at h <;> cases h <;> rfl

theorem encode_of_decodeClassF {x : RegIdx} {nn : Byte} {ins : Instr} (h : decodeClassF x nn = .instr ins) :
    encode ins = formatXB 0xF#4 x nn := by
  unfold decodeClassF at h
  split at h <;> cases h <;> rfl

/-- What decodes as an instruction is put together again from the fields the decoder took out of it. -/
theorem encode_of_decodeWord {op : Word} {ins : Instr} (h : decodeWord op = .instr ins) : encode ins = op := by
  have hA := formatA_fields op
  have hXB := formatXB_fields op
  have hXYN := formatXYN_fields op
  unfold decodeWord at h
  split at h
  -- class 0x0: two whole words
  case h_1 =>
    split at h
    · next hop => cases h; exact hop.symm
    · split at h
      · next hop => cases h; exact hop.symm
      · cases h
  -- classes 0x5 and 0x9: the low digit must be 0
  case h_6 hc | h_10 hc =>
    split at h
    · next hn => cases h; rw [hc, hn] at hXYN; exact hXYN
    · cases h
  -- classes 0x8, 0xD, 0xE and 0xF
  case h_9 hc => rw [encode_of_decodeClass8 h, ← hc, hXYN]
  case h_14 hc => cases h; rw [hc] at hXYN; exact hXYN
  case h_15 hc => rw [encode_of_decodeClassE h, ← hc, hXB]
  case h_16 hc => rw [encode_of_decodeClassF h, ← hc, hXB]
  case h_17 => cases h
  -- the classes with an address, then those with a register and a byte
  case h_2 hc | h_3 hc | h_11 hc | h_12 hc => cases h; rw [hc] at hA; exact hA
  case h_4 hc | h_5 hc | h_7 hc | h_8 hc | h_13 hc => cases h; rw [hc] at hXB; exact hXB

/-- Settles O18: the fields of the instruction are the word's, and its format puts them back in their places. -/
theorem encodeOfDecodeIsTheWord : Obligations.EncodeOfDecodeIsTheWord := fun _ _ => encode_of_decodeWord

/-- Settles O20: each sample word is one evaluation of the decoder. -/
theorem sampleWordsDecode : Obligations.SampleWordsDecode := by
  unfold Obligations.SampleWordsDecode
  decide

end Sys2Proof
end

section
/-! PROOFS. The decoder against the rows of the opcode map (30_encoding.md sections 2 to 4). -/

namespace Sys2Proof

/-! ## The masks: each keeps some fields of a word and clears the others, bit by bit -/

theorem and_classMask (op : Word) : op &&& 0xF000 = formatA (opClass op) 0 := by
  apply BitVec.eq_of_getLsbD_eq
  intro i hi
  simp only [opClass, formatA, BitVec.getLsbD_and, BitVec.getLsbD_extractLsb', BitVec.getLsbD_append]
  interval_cases i <;> simp

theorem and_classNNMask (op : Word) : op &&& 0xF0FF = formatXB (opClass op) 0 (fieldNN op) := by
  apply BitVec.eq_of_getLsbD_eq
  intro i hi
  simp only [opClass, fieldNN, formatXB, BitVec.getLsbD_and, BitVec.getLsbD_extractLsb', BitVec.getLsbD_append]
  interval_cases i <;> simp

theorem and_classNMask (op : Word) : op &&& 0xF00F = formatXYN (opClass op) 0 0 (fieldN op) := by
  apply BitVec.eq_of_getLsbD_eq
  intro i hi
  simp only [opClass, fieldN, formatXYN, BitVec.getLsbD_and, BitVec.getLsbD_extractLsb', BitVec.getLsbD_append]
  interval_cases i <;> simp

/-! ## What matching a row says of a word's fields; `c`, `nn` and `n` are the row's own -/

theorem admits_wholeWord {op pat : Word} : OpcodeRow.admits ⟨0xFFFF, pat⟩ op = true ↔ op = pat := by
  have hmask : op &&& 0xFFFF = op := BitVec.and_allOnes
  rw [OpcodeRow.admits, beq_iff_eq, hmask]

theorem admits_class {op pat : Word} (c : BitVec 4) (hpat : pat = formatA c 0) :
    OpcodeRow.admits ⟨0xF000, pat⟩ op = true ↔ opClass op = c := by
  rw [OpcodeRow.admits, beq_iff_eq, and_classMask, hpat]
  refine ⟨fun h => ?_, fun h => by rw [h]⟩
  rw [← opClass_formatA (opClass op) 0, h, opClass_formatA]

theorem admits_classNN {op pat : Word} (c : BitVec 4) (nn : Byte) (hpat : pat = formatXB c 0 nn) :
    OpcodeRow.admits ⟨0xF0FF, pat⟩ op = true ↔ opClass op = c ∧ fieldNN op = nn := by
  rw [OpcodeRow.admits, beq_iff_eq, and_classNNMask, hpat]
  refine ⟨fun h => ⟨?_, ?_⟩, fun ⟨hc, hnn⟩ => by rw [hc, hnn]⟩
  · rw [← opClass_formatXB (opClass op) 0 (fieldNN op), h, opClass_formatXB]
  · rw [← fieldNN_formatXB (opClass op) 0 (fieldNN op), h, fieldNN_formatXB]

theorem admits_classN {op pat : Word} (c : BitVec 4) (n : Nibble) (hpat : pat = formatXYN c 0 0 n) :
    OpcodeRow.admits ⟨0xF00F, pat⟩ op = true ↔ opClass op = c ∧ fieldN op = n := by
  rw [OpcodeRow.admits, beq_iff_eq, and_classNMask, hpat]
  refine ⟨fun h => ⟨?_, ?_⟩, fun ⟨hc, hn⟩ => by rw [hc, hn]⟩
  · rw [← opClass_formatXYN (opClass op) 0 0 (fieldN op), h, opClass_formatXYN]
  · rw [← fieldN_formatXYN (opClass op) 0 0 (fieldN op), h, fieldN_formatXYN]

/-! ## Every instruction's word matches its row -/

theorem admits_formatA (c : BitVec 4) (nnn : Addr) {pat : Word} (hpat : pat = formatA c 0) :
    OpcodeRow.admits ⟨0xF000, pat⟩ (formatA c nnn) = true :=
  (admits_class c hpat).2 (opClass_formatA c nnn)

theorem admits_formatXB (c : BitVec 4) (x : RegIdx) (nn : Byte) {pat : Word} (hpat : pat = formatA c 0) :
    OpcodeRow.admits ⟨0xF000, pat⟩ (formatXB c x nn) = true :=
  (admits_class c hpat).2 (opClass_formatXB c x nn)

theorem admits_formatXB_selector (c : BitVec 4) (x : RegIdx) (nn : Byte) {pat : Word} (hpat : pat = formatXB c 0 nn) :
    OpcodeRow.admits ⟨0xF0FF, pat⟩ (formatXB c x nn) = true :=
  (admits_classNN c nn hpat).2 ⟨opClass_formatXB c x nn, fieldNN_formatXB c x nn⟩

theorem admits_formatXYN_selector (c : BitVec 4) (x y : RegIdx) (n : Nibble) {pat : Word}
    (hpat : pat = formatXYN c 0 0 n) : OpcodeRow.admits ⟨0xF00F, pat⟩ (formatXYN c x y n) = true :=
  (admits_classN c n hpat).2 ⟨opClass_formatXYN c x y n, fieldN_formatXYN c x y n⟩

theorem exists_row_admits_encode (ins : Instr) :
    ∃ r, opcodeTable[ins.row]? = some r ∧ r.admits (encode ins) = true := by
  cases ins with
  | cls | ret => exact ⟨_, rfl, admits_wholeWord.2 rfl⟩
  | jp _ | call _ | ldI _ | jpV0 _ => exact ⟨_, rfl, admits_formatA _ _ rfl⟩
  | seB _ _ | sneB _ _ | ldB _ _ | addB _ _ | rnd _ _ => exact ⟨_, rfl, admits_formatXB _ _ _ rfl⟩
  | drw x y n => exact ⟨_, rfl, (admits_class 0xD#4 rfl).2 (opClass_formatXYN _ x y n)⟩
  | seR _ _ | sneR _ _ | ldR _ _ | orR _ _ | andR _ _ | xorR _ _ | addR _ _ | sub _ _ | shr _ _ | subn _ _ | shl _ _ =>
    exact ⟨_, rfl, admits_formatXYN_selector _ _ _ _ rfl⟩
  | skp _ | sknp _ | ldXDt _ | ldXK _ | ldDtX _ | ldStX _ | addI _ | ldF _ | ldBX _ | ldMiX _ | ldXMi _ =>
    exact ⟨_, rfl, admits_formatXB_selector _ _ _ rfl⟩

/-! ## A word that matches a row is the word of an instruction of that row -/

theorem formatA_of_admits {op pat : Word} (c : BitVec 4) (hpat : pat = formatA c 0)
    (h : OpcodeRow.admits ⟨0xF000, pat⟩ op = true) : formatA c (fieldNNN op) = op := by
  have hop := formatA_fields op
  rwa [(admits_class c hpat).1 h] at hop

theorem formatXB_of_admits {op pat : Word} (c : BitVec 4) (hpat : pat = formatA c 0)
    (h : OpcodeRow.admits ⟨0xF000, pat⟩ op = true) : formatXB c (fieldX op) (fieldNN op) = op := by
  have hop := formatXB_fields op
  rwa [(admits_class c hpat).1 h] at hop

theorem formatXYN_of_admits {op pat : Word} (c : BitVec 4) (hpat : pat = formatA c 0)
    (h : OpcodeRow.admits ⟨0xF000, pat⟩ op = true) : formatXYN c (fieldX op) (fieldY op) (fieldN op) = op := by
  have hop := formatXYN_fields op
  rwa [(admits_class c hpat).1 h] at hop

theorem formatXB_selector_of_admits {op pat : Word} (c : BitVec 4) (nn : Byte) (hpat : pat = formatXB c 0 nn)
    (h : OpcodeRow.admits ⟨0xF0FF, pat⟩ op = true) : formatXB c (fieldX op) nn = op := by
  obtain ⟨hc, hnn⟩ := (admits_classNN c nn hpat).1 h
  have hop := formatXB_fields op
  rwa [hc, hnn] at hop

theorem formatXYN_selector_of_admits {op pat : Word} (c : BitVec 4) (n : Nibble) (hpat : pat = formatXYN c 0 0 n)
    (h : OpcodeRow.admits ⟨0xF00F, pat⟩ op = true) : formatXYN c (fieldX op) (fieldY op) n = op := by
  obtain ⟨hc, hn⟩ := (admits_classN c n hpat).1 h
  have hop := formatXYN_fields op
  rwa [hc, hn] at hop

/-- Row k's instruction with the fields of the word `op` as its operands. -/
def rowInstr (op : Word) : List Instr :=
  let nnn := fieldNNN op
  let x := fieldX op
  let y := fieldY op
  let nn := fieldNN op
  [.cls, .ret, .jp nnn, .call nnn, .seB x nn, .sneB x nn, .seR x y, .ldB x nn, .addB x nn,
   .ldR x y, .orR x y, .andR x y, .xorR x y, .addR x y, .sub x y, .shr x y, .subn x y, .shl x y,
   .sneR x y, .ldI nnn, .jpV0 nnn, .rnd x nn, .drw x y (fieldN op), .skp x, .sknp x,
   .ldXDt x, .ldXK x, .ldDtX x, .ldStX x, .addI x, .ldF x, .ldBX x, .ldMiX x, .ldXMi x]

theorem rowInstr_row (op : Word) : (rowInstr op).map Instr.row = List.range 34 := rfl

/-- Row by row, a word that matches is put together again from the fields that the row leaves open. -/
theorem encode_rowInstr_of_admits (op : Word) :
    List.Forall₂ (fun r ins => r.admits op = true → encode ins = op) opcodeTable (rowInstr op) := by
  simp only [opcodeTable, rowInstr, List.cons_append, List.nil_append, List.forall₂_cons]
  exact
    ⟨fun h => (admits_wholeWord.1 h).symm, fun h => (admits_wholeWord.1 h).symm, formatA_of_admits 0x1#4 rfl,
     formatA_of_admits 0x2#4 rfl, formatXB_of_admits 0x3#4 rfl, formatXB_of_admits 0x4#4 rfl,
     formatXYN_selector_of_admits 0x5#4 0x0#4 rfl, formatXB_of_admits 0x6#4 rfl, formatXB_of_admits 0x7#4 rfl,
     formatXYN_selector_of_admits 0x8#4 0x0#4 rfl, formatXYN_selector_of_admits 0x8#4 0x1#4 rfl,
     formatXYN_selector_of_admits 0x8#4 0x2#4 rfl, formatXYN_selector_of_admits 0x8#4 0x3#4 rfl,
     formatXYN_selector_of_admits 0x8#4 0x4#4 rfl, formatXYN_selector_of_admits 0x8#4 0x5#4 rfl,
     formatXYN_selector_of_admits 0x8#4 0x6#4 rfl, formatXYN_selector_of_admits 0x8#4 0x7#4 rfl,
     formatXYN_selector_of_admits 0x8#4 0xE#4 rfl, formatXYN_selector_of_admits 0x9#4 0x0#4 rfl,
     formatA_of_admits 0xA#4 rfl, formatA_of_admits 0xB#4 rfl, formatXB_of_admits 0xC#4 rfl,
     formatXYN_of_admits 0xD#4 rfl, formatXB_selector_of_admits 0xE#4 0x9E#8 rfl,
     formatXB_selector_of_admits 0xE#4 0xA1#8 rfl, formatXB_selector_of_admits 0xF#4 0x07#8 rfl,
     formatXB_selector_of_admits 0xF#4 0x0A#8 rfl, formatXB_selector_of_admits 0xF#4 0x15#8 rfl,
     formatXB_selector_of_admits 0xF#4 0x18#8 rfl, formatXB_selector_of_admits 0xF#4 0x1E#8 rfl,
     formatXB_selector_of_admits 0xF#4 0x29#8 rfl, formatXB_selector_of_admits 0xF#4 0x33#8 rfl,
     formatXB_selector_of_admits 0xF#4 0x55#8 rfl, formatXB_selector_of_admits 0xF#4 0x65#8 rfl, .nil⟩

theorem exists_encode_of_admits {op : Word} {k : Nat} {r : OpcodeRow} (hr : opcodeTable[k]? = some r)
    (h : r.admits op = true) : ∃ ins, encode ins = op ∧ ins.row = k := by
  obtain ⟨hk, rfl⟩ := List.getElem?_eq_some_iff.1 hr
  have hk' : k < (rowInstr op).length := (encode_rowInstr_of_admits op).length_eq ▸ hk
  refine ⟨(rowInstr op)[k], (encode_rowInstr_of_admits op).get hk hk' h, ?_⟩
  have hrow : ((rowInstr op).map Instr.row)[k]'(by simpa using hk') = k := by simp [rowInstr_row]
  simpa using hrow

/-- Settles O19: a word matches row k exactly if it is the word of an instruction of row k, and what a word decodes as
is the instruction whose word it is. -/
theorem decoderAgreesWithTheOpcodeMap : Obligations.DecoderAgreesWithTheOpcodeMap := by
  intro op k r hr
  constructor
  · intro h
    obtain ⟨ins, rfl, hrow⟩ := exists_encode_of_admits hr h
    exact ⟨ins, decodeWord_encode ins, hrow⟩
  · rintro ⟨ins, hdecode, rfl⟩
    obtain ⟨r', hr', hadmits⟩ := exists_row_admits_encode ins
    rw [encode_of_decodeWord hdecode] at hadmits
    rwa [Option.some.inj (hr.symm.trans hr')]

end Sys2Proof
end

section
/-! PROOFS. What the remaining state operations add to what changed, and one footprint for every instruction: what it
may write, said once. -/

namespace Sys2Proof.Machine

theorem exec_ret_of_pop_eq_some {s u : State} {ra : Word} (hpop : s.pop = some (ra, u)) :
    exec .ret s = complete (.goto (ra + 2)) u := by
  simp only [exec, execRet, hpop]

theorem exec_ret_of_pop_eq_none {s : State} (hpop : s.pop = none) :
    exec .ret s = raise .ret .stackUnderflow none s := by
  simp only [exec, execRet, hpop]

/-- What EX9E and EXA1 can do: skip on the key that V[x] names, or raise if it names none (R200, R201). -/
theorem skipIfKey_cases (ins : Instr) (x : RegIdx) (down : Bool) (s : State) :
    (∃ k, keyNumber s.cfg.keyIndexPolicy (s.reg x) = some k ∧ skipIfKey ins x down s = skipIf (s.key[k] == down) s) ∨
    (keyNumber s.cfg.keyIndexPolicy (s.reg x) = none ∧
      skipIfKey ins x down s = raise ins .outOfBoundsAccess (some (s.reg x).toNat) s) := by
  unfold skipIfKey
  rcases keyNumber s.cfg.keyIndexPolicy (s.reg x) with _ | k
  · exact .inr ⟨rfl, rfl⟩
  · exact .inl ⟨k, rfl, rfl⟩

theorem exec_ldXK_of_lowestKeyDown_eq_some {x k : RegIdx} {s : State} (hkey : lowestKeyDown s.key = some k) :
    exec (.ldXK x) s = complete .next (s.setReg x (BitVec.ofNat 8 k.val)) := by
  simp only [exec, execLdXK, hkey]

theorem exec_ldXK_of_lowestKeyDown_eq_none {x : RegIdx} {s : State} (hkey : lowestKeyDown s.key = none) :
    exec (.ldXK x) s = complete .hold s := by
  simp only [exec, execLdXK, hkey]

end Sys2Proof.Machine

namespace Sys2Proof.Claims

open Sys2Proof.Machine

/-! ## The state operations, inside a footprint that allows them -/

/-- Writes to consecutive registers of the footprint stay inside it. -/
theorem Unchanged.setRegs {fp : Footprint} {s t : State} {bs : List Byte} : ∀ {k : Nat}, Unchanged fp s t →
    (∀ j, k ≤ j → j < k + bs.length → Fin.ofNat 16 j ∈ fp.regs) → Unchanged fp s (t.setRegs k bs) := by
  induction bs generalizing t with
  | nil => exact fun h _ => h
  | cons b bs ih =>
    intro k h hregs
    rw [List.length_cons] at hregs
    exact ih (h.setReg (hregs k (by omega) (by omega)) b) fun j hj hj' => hregs j (by omega) (by omega)

/-- Stores inside the footprint's bytes stay inside it. -/
theorem Unchanged.pokes {fp : Footprint} {s t : State} (h : Unchanged fp s t) {a : Nat} {bs : List Byte}
    (hfirst : fp.storeAt ≤ a) (hlast : a + bs.length ≤ fp.storeAt + fp.storeLen) : Unchanged fp s (t.pokes a bs) where
  regs j hj := (State.reg_congr (by simp) j).trans (h.regs j hj)
  i hi := by simpa using h.i hi
  stack hs := by simpa using h.stack hs
  delay hd := by simpa using h.delay hd
  sound hs := by simpa using h.sound hs
  display hd := by simpa using h.display hd
  draws hd := by simpa using h.draws hd
  memory c hc := (State.peek_pokes_other bs t a c (by omega)).trans (h.memory c hc)
  key := by simpa using h.key
  run := by simpa using h.run
  fault := by simpa using h.fault
  beeps := by simpa using h.beeps
  cfg := by simpa using h.cfg

theorem Unchanged.setIndex {fp : Footprint} {s t : State} (h : Unchanged fp s t) (hi : fp.i = true) (w : Word) :
    Unchanged fp s { t with i := w } :=
  { h with i := fun hno => absurd (hi.symm.trans hno) (by decide) }

theorem Unchanged.setDisplay {fp : Footprint} {s t : State} (h : Unchanged fp s t) (hd : fp.display = true)
    (fb : Framebuffer) (dirty : Bool) : Unchanged fp s { t with fb := fb, dirty := dirty } :=
  { h with display := fun hno => absurd (hd.symm.trans hno) (by decide) }

theorem Unchanged.setDraws {fp : Footprint} {s t : State} (h : Unchanged fp s t) (hd : fp.draws = true) (n : Nat) :
    Unchanged fp s { t with draws := n } :=
  { h with draws := fun hno => absurd (hd.symm.trans hno) (by decide) }

theorem Unchanged.setStack {fp : Footprint} {s t : State} (h : Unchanged fp s t) (hs : fp.stack = true)
    (stack : Vector Word 16) (sp : Fin 17) : Unchanged fp s { t with stack := stack, sp := sp } :=
  { h with stack := fun hno => absurd (hs.symm.trans hno) (by decide) }

theorem Unchanged.setDelay {fp : Footprint} {s t : State} (h : Unchanged fp s t) (hd : fp.delay = true) (b : Byte) :
    Unchanged fp s { t with dt := b } :=
  { h with delay := fun hno => absurd (hd.symm.trans hno) (by decide) }

theorem Unchanged.setSound {fp : Footprint} {s t : State} (h : Unchanged fp s t) (hs : fp.sound = true) (b : Byte) :
    Unchanged fp s { t with st := b } :=
  { h with sound := fun hno => absurd (hs.symm.trans hno) (by decide) }

/-! ## The footprint of an instruction -/

/-- What `ins`, executed in s, may write besides PC (10_state.md, R27, R51). -/
def footprint (s : State) (ins : Instr) : Footprint :=
  match ins with
  | .cls => { display := true }
  | .ret | .call _ => { stack := true }
  | .drw _ _ _ => { regs := mayWrite ins, display := true }
  | .ldI _ | .ldF _ => { i := true }
  | .addI _ | .ldXMi _ => { regs := mayWrite ins, i := true }
  | .rnd _ _ => { regs := mayWrite ins, draws := true }
  | .ldDtX _ => { delay := true }
  | .ldStX _ => { sound := true }
  | .ldBX _ => { storeAt := s.base, storeLen := 3 }
  | .ldMiX x => { i := true, storeAt := s.base, storeLen := blockSize x }
  | _ => { regs := mayWrite ins }

theorem footprint_regs (s : State) (ins : Instr) : (footprint s ins).regs = mayWrite ins := by
  cases ins <;> rfl

/-- The registers FX65 may write are the ones its block covers. -/
theorem mem_mayWrite_ldXMi {x j : RegIdx} : j ∈ mayWrite (.ldXMi x) ↔ j ≤ x := by
  simp [mayWrite]

/-- FX65's register writes go to V0 to Vx. -/
theorem unchanged_ldXMi (s : State) (x : RegIdx) {bs : List Byte} (hlen : bs.length = blockSize x) :
    Unchanged (footprint s (.ldXMi x)) s ((s.setRegs 0 bs).advanceI x) := by
  refine ((Unchanged.refl _ s).setRegs fun j _ hj => ?_).setIndex rfl _
  rw [hlen, blockSize] at hj
  refine mem_mayWrite_ldXMi.2 (Fin.le_def.2 ?_)
  rw [Fin.val_ofNat]
  exact (Nat.mod_le _ _).trans (by omega)

/-- FX55's stores are its block. -/
theorem unchanged_ldMiX (s : State) (x : RegIdx) :
    Unchanged (footprint s (.ldMiX x)) s ((s.pokes s.base (s.firstRegs (blockSize x))).advanceI x) :=
  ((Unchanged.refl _ s).pokes le_rfl (by rw [State.firstRegs_length]; exact le_rfl)).setIndex rfl _

/-- FX33's stores are the three digits. -/
theorem unchanged_ldBX (s : State) (x : RegIdx) :
    Unchanged (footprint s (.ldBX x)) s (s.pokes s.base (bcdDigits (s.reg x))) :=
  (Unchanged.refl _ s).pokes le_rfl le_rfl

/-! ## Every instruction stays inside its footprint -/

/-- The instructions that end in a jump (41_control_flow.md). -/
def Jumps (ins : Instr) : Prop := ins = .ret ∨ ∃ nnn, ins = .jp nnn ∨ ins = .call nnn ∨ ins = .jpV0 nnn

/-- What an instruction that completes with the PC outcome `o` has done to the state s, which is u before PC moves: it
has stayed inside its footprint, kept memory canonical, and jumps only if it is a jump. -/
structure Effect (ins : Instr) (s : State) (o : PcOutcome) (u : State) : Prop where
  frame : Unchanged (footprint s ins) s u
  pc : u.pc = s.pc
  canonical : s.MemoryCanonical → u.MemoryCanonical
  jumps : ∀ w, o = .goto w → Jumps ins

theorem Effect.skip {ins : Instr} (s : State) (c : Bool) : Effect ins s (if c then .skip else .next) s where
  frame := .refl _ s
  pc := rfl
  canonical := id
  jumps w h := by split at h <;> cases h

/-- An effect inside the footprint of an instruction that writes V[x], when it writes nothing else. -/
theorem Effect.setReg {ins : Instr} {s : State} {x : RegIdx} (hx : x ∈ (footprint s ins).regs) (b : Byte) :
    Effect ins s .next (s.setReg x b) :=
  ⟨(Unchanged.refl _ s).setReg hx b, rfl, id, nofun⟩

/-- The effect of an ALU instruction with a flag, in either order of its two writes. -/
theorem Effect.setReg_setFlag {ins : Instr} {s : State} {x : RegIdx} (hx : (footprint s ins).regs = [x, vF]) (b : Byte)
    (f : Bool) : Effect ins s .next ((s.setReg x b).setFlag f) ∧ Effect ins s .next ((s.setFlag f).setReg x b) := by
  have hmem : x ∈ (footprint s ins).regs ∧ vF ∈ (footprint s ins).regs := by simp [hx]
  exact ⟨⟨((Unchanged.refl _ s).setReg hmem.1 b).setFlag hmem.2 f, rfl, id, nofun⟩,
    ⟨((Unchanged.refl _ s).setFlag hmem.2 f).setReg hmem.1 b, rfl, id, nofun⟩⟩

/-- Every instruction completes with its effect, or raises. -/
theorem exec_effect (ins : Instr) (s : State) :
    (∃ o u, exec ins s = complete o u ∧ Effect ins s o u) ∨
    (∃ c addr, exec ins s = .next (s.halt c (some (encode ins)) addr)) := by
  cases ins with
  | cls => exact .inl ⟨_, _, rfl, (Unchanged.refl _ s).setDisplay rfl _ _, rfl, id, nofun⟩
  | ret =>
    rcases s.pop_cases with ⟨_, hpop⟩ | ⟨_, hpop⟩
    · exact .inl ⟨_, _, exec_ret_of_pop_eq_some hpop, (Unchanged.refl _ s).setStack rfl s.stack _, rfl, id,
        fun _ _ => .inl rfl⟩
    · exact .inr ⟨_, _, exec_ret_of_pop_eq_none hpop⟩
  | call nnn =>
    rcases s.push_cases s.pc with ⟨_, hpush⟩ | ⟨_, hpush⟩
    · exact .inl ⟨_, _, exec_call_of_push_eq_some hpush, (Unchanged.refl _ s).setStack rfl _ _, rfl, id,
        fun _ _ => .inr ⟨nnn, .inr (.inl rfl)⟩⟩
    · exact .inr ⟨_, _, exec_call_of_push_eq_none hpush⟩
  | jp nnn => exact .inl ⟨_, s, rfl, .refl _ s, rfl, id, fun _ _ => .inr ⟨nnn, .inl rfl⟩⟩
  | jpV0 nnn => exact .inl ⟨_, s, rfl, .refl _ s, rfl, id, fun _ _ => .inr ⟨nnn, .inr (.inr rfl)⟩⟩
  | seB _ _ | sneB _ _ | seR _ _ | sneR _ _ => exact .inl ⟨_, s, rfl, .skip s _⟩
  | ldB _ _ | addB _ _ | ldR _ _ | orR _ _ | andR _ _ | xorR _ _ | ldXDt _ =>
    exact .inl ⟨_, _, rfl, .setReg List.mem_cons_self _⟩
  | addR _ _ => exact .inl ⟨_, _, rfl, (Effect.setReg_setFlag rfl _ _).1⟩
  | sub _ _ | shr _ _ | subn _ _ | shl _ _ => exact .inl ⟨_, _, rfl, (Effect.setReg_setFlag rfl _ _).2⟩
  | ldI _ | ldF _ => exact .inl ⟨_, _, rfl, (Unchanged.refl _ s).setIndex rfl _, rfl, id, nofun⟩
  | addI _ =>
    exact .inl ⟨_, _, rfl, ((Unchanged.refl _ s).setIndex rfl _).setFlag List.mem_cons_self _, rfl, id, nofun⟩
  | rnd _ _ =>
    exact .inl ⟨_, _, rfl, ((Unchanged.refl _ s).setReg List.mem_cons_self _).setDraws rfl _, rfl, id, nofun⟩
  | ldDtX x => exact .inl ⟨_, _, rfl, (Unchanged.refl _ s).setDelay rfl _, rfl, id, nofun⟩
  | ldStX x => exact .inl ⟨_, _, rfl, (Unchanged.refl _ s).setSound rfl _, rfl, id, nofun⟩
  | ldXK x =>
    rcases hkey : lowestKeyDown s.key with _ | k
    · exact .inl ⟨_, _, exec_ldXK_of_lowestKeyDown_eq_none hkey, .refl _ s, rfl, id, nofun⟩
    · exact .inl ⟨_, _, exec_ldXK_of_lowestKeyDown_eq_some hkey, .setReg List.mem_cons_self _⟩
  | skp x =>
    rcases skipIfKey_cases (.skp x) x true s with ⟨k, -, hexec⟩ | ⟨-, hexec⟩
    · exact .inl ⟨_, s, hexec, .skip s _⟩
    · exact .inr ⟨_, _, hexec⟩
  | sknp x =>
    rcases skipIfKey_cases (.sknp x) x false s with ⟨k, -, hexec⟩ | ⟨-, hexec⟩
    · exact .inl ⟨_, s, hexec, .skip s _⟩
    · exact .inr ⟨_, _, hexec⟩
  | drw x y n =>
    rcases withAddresses_cases (.drw x y n) s.base n.toNat s _ with ⟨-, hexec⟩ | ⟨a, -, hexec⟩
    · exact .inl ⟨_, _, hexec, ((Unchanged.refl _ s).setDisplay rfl _ _).setFlag List.mem_cons_self _, rfl, id, nofun⟩
    · exact .inr ⟨_, _, hexec⟩
  | ldBX x =>
    rcases withAddresses_cases (.ldBX x) s.base 3 s _ with ⟨hfits, hexec⟩ | ⟨a, -, hexec⟩
    · exact .inl ⟨_, _, hexec, unchanged_ldBX s x, by simp,
        fun hs => State.pokes_canonical (bcdDigits (s.reg x)) hs (hfits.resolve_left (by decide)), nofun⟩
    · exact .inr ⟨_, _, hexec⟩
  | ldMiX x =>
    rcases withAddresses_cases (.ldMiX x) s.base (blockSize x) s _ with ⟨hfits, hexec⟩ | ⟨a, -, hexec⟩
    · refine .inl ⟨_, _, hexec, unchanged_ldMiX s x, by simp, fun hs => ?_, nofun⟩
      refine State.pokes_canonical (s.firstRegs (blockSize x)) hs ?_
      rw [State.firstRegs_length]
      exact hfits.resolve_left (Nat.succ_ne_zero _)
    · exact .inr ⟨_, _, hexec⟩
  | ldXMi x =>
    rcases withAddresses_cases (.ldXMi x) s.base (blockSize x) s _ with ⟨-, hexec⟩ | ⟨a, -, hexec⟩
    · exact .inl ⟨_, _, hexec, unchanged_ldXMi s x (by simp), by simp,
        fun hs => by simpa [State.MemoryCanonical] using hs, nofun⟩
    · exact .inr ⟨_, _, hexec⟩

/-- Every instruction stays inside its footprint, or halts the core and writes nothing but RUN and FAULT. -/
theorem exec_unchanged {ins : Instr} {s t : State} (h : exec ins s = .next t) :
    Unchanged (footprint s ins) s t ∨ ∃ c opcode addr, t = s.halt c opcode addr := by
  rcases exec_effect ins s with ⟨o, u, hexec, heffect⟩ | ⟨c, addr, hexec⟩
  · cases hexec.symm.trans h
    exact .inl (heffect.frame.applyOutcome o)
  · cases hexec.symm.trans h
    exact .inr ⟨_, _, _, rfl⟩

end Sys2Proof.Claims
end

section
/-! PROOFS. Which instructions write what, read off the footprints (10_state.md, 20_memory.md R51, 60_exceptions.md
R220). -/

namespace Sys2Proof.Claims

open Sys2Proof.Machine

/-- Settles O49: a byte that changed lies in the footprint's bytes, which only FX33 and FX55 have. -/
theorem onlyTwoInstructionsWriteMemory : Obligations.OnlyTwoInstructionsWriteMemory := by
  intro ins s t hexec a hchanged
  rcases exec_unchanged hexec with hframe | ⟨c, opcode, addr, rfl⟩
  · have hin : (footprint s ins).storeAt ≤ a ∧ a < (footprint s ins).storeAt + (footprint s ins).storeLen := by
      by_contra hout
      exact hchanged (hframe.memory a (by omega))
    cases ins with
    | ldBX x => exact .inl ⟨x, rfl, hin.1, Nat.le_of_lt_succ hin.2⟩
    | ldMiX x => exact .inr ⟨x, rfl, hin.1, Nat.le_of_lt_succ hin.2⟩
    | _ => exact absurd hin.2 (Nat.not_lt.2 hin.1)
  · exact absurd rfl hchanged

/-- Settles O50: the footprint's registers are the ones R27 names, and only FX15's and FX18's allow a timer. -/
theorem registersAndTimersWrittenOnlyWhereNamed : Obligations.RegistersAndTimersWrittenOnlyWhereNamed := by
  intro ins s t hexec
  rcases exec_unchanged hexec with hframe | ⟨c, opcode, addr, rfl⟩
  · refine ⟨fun j hj => hframe.regs j (footprint_regs s ins ▸ hj), fun hins => hframe.delay ?_,
      fun hins => hframe.sound ?_⟩
    · cases ins with
      | ldDtX x => exact absurd rfl (hins x)
      | _ => rfl
    · cases ins with
      | ldStX x => exact absurd rfl (hins x)
      | _ => rfl
  · exact ⟨fun _ _ => rfl, fun _ => rfl, fun _ => rfl⟩

/-- Settles O51: the stack is in the footprint of CALL and RET alone, the display in that of CLS and DRW, and I in
that of five instructions. -/
theorem stackDisplayAndIndexWrittenOnlyWhereNamed : Obligations.StackDisplayAndIndexWrittenOnlyWhereNamed := by
  intro ins s t hexec
  rcases exec_unchanged hexec with hframe | ⟨c, opcode, addr, rfl⟩
  · refine ⟨fun hret hcall => hframe.stack ?_, fun hcls hdrw => hframe.display ?_, fun hi => ?_⟩
    · cases ins with
      | ret => exact absurd rfl hret
      | call nnn => exact absurd rfl (hcall nnn)
      | _ => rfl
    · cases ins with
      | cls => exact absurd rfl hcls
      | drw x y n => exact absurd rfl (hdrw x y n)
      | _ => rfl
    · cases ins with
      | ldI nnn => exact .inl ⟨nnn, rfl⟩
      | addI x | ldF x | ldMiX x | ldXMi x => exact .inr ⟨x, by simp⟩
      | _ => exact absurd (hframe.i rfl) hi
  · exact ⟨fun _ _ => ⟨rfl, rfl⟩, fun _ _ => ⟨rfl, rfl⟩, fun hi => absurd rfl hi⟩

/-- Settles O52: an instruction that halts a core that was not halted has a cause in R220's table, and an access past
memory is one only for the four instructions that access memory. -/
theorem onlyEightInstructionsCanRaise : Obligations.OnlyEightInstructionsCanRaise := by
  intro ins s t hexec hrun hhalted
  rcases exec_cases ins s with ⟨u, hu, hkept, -⟩ | ⟨c, addr, -, hcause⟩
  · cases hu.symm.trans hexec
    exact absurd (hkept.symm.trans hhalted) hrun
  · cases hcause with
    | emptyStack _ => exact .inl rfl
    | fullStack nnn _ => exact .inr (.inl ⟨nnn, rfl⟩)
    | keyTooLarge x hins _ _ =>
      rcases hins with rfl | rfl
      · exact .inr (.inr (.inr ⟨x, .inl rfl⟩))
      · exact .inr (.inr (.inr ⟨x, .inr (.inl rfl)⟩))
    | pastMemory hfrom hbelow _ _ =>
      cases ins with
      | drw x y n => exact .inr (.inr (.inl ⟨x, y, n, rfl⟩))
      | ldBX x | ldMiX x | ldXMi x => exact .inr (.inr (.inr ⟨x, by simp⟩))
      | _ => exact absurd hbelow (Nat.not_lt.2 hfrom)

end Sys2Proof.Claims
end

section
/-! PROOFS. What no instruction observes: the keys but for three instructions, DIRTY, ST and the beep record
(10_state.md sections 6 to 8), and the stack but for CALL and RET. One simulation serves the three: a run of an
instruction beside a run of it with other values of these pieces. -/

namespace Sys2Proof.Claims

open Sys2Proof.Machine

/-- Values for the pieces of the state that few instructions touch. -/
structure Overlay where
  stack : Vector Word 16
  key : Vector Bool 16
  dirty : Bool
  st : Byte
  beeps : Nat

/-- The state s with the values of `o`. -/
def Overlay.on (o : Overlay) (s : State) : State :=
  { s with stack := o.stack, key := o.key, dirty := o.dirty, st := o.st, beeps := o.beeps }

theorem Overlay.setRegs_on (o : Overlay) (bs : List Byte) :
    ∀ (s : State) (k : Nat), (o.on s).setRegs k bs = o.on (s.setRegs k bs) := by
  induction bs with
  | nil => exact fun _ _ => rfl
  | cons b bs ih => exact fun s k => ih (s.setReg (Fin.ofNat 16 k) b) (k + 1)

theorem Overlay.pokes_on (o : Overlay) (bs : List Byte) :
    ∀ (s : State) (a : Nat), (o.on s).pokes a bs = o.on (s.pokes a bs) := by
  induction bs with
  | nil => exact fun _ _ => rfl
  | cons b bs ih => exact fun s a => ih (s.poke a b) (a + 1)

/-- From s under `o` to t under `o'`, where `ins` leads from s to t: each overlaid piece is left alone in both runs, or
written in both, with the same value, by an instruction that writes it. -/
structure Overlay.Follows (ins : Instr) (s t : State) (o o' : Overlay) : Prop where
  stack : (t.stack = s.stack ∧ o'.stack = o.stack) ∨
    (t.stack = o'.stack ∧ o.stack = s.stack ∧ ∃ nnn, ins = .call nnn)
  key : t.key = s.key ∧ o'.key = o.key
  dirty : (t.dirty = s.dirty ∧ o'.dirty = o.dirty) ∨
    (t.dirty = true ∧ o'.dirty = true ∧ (ins = .cls ∨ ∃ x y n, ins = .drw x y n))
  st : (t.st = s.st ∧ o'.st = o.st) ∨ (t.st = o'.st ∧ ∃ x, ins = .ldStX x)
  beeps : t.beeps = s.beeps ∧ o'.beeps = o.beeps

/-- Nothing overlaid is written. -/
theorem Overlay.Follows.kept {ins : Instr} {s t : State} (o : Overlay) (hstack : t.stack = s.stack)
    (hkey : t.key = s.key) (hdirty : t.dirty = s.dirty) (hst : t.st = s.st) (hbeeps : t.beeps = s.beeps) :
    o.Follows ins s t o :=
  ⟨.inl ⟨hstack, rfl⟩, ⟨hkey, rfl⟩, .inl ⟨hdirty, rfl⟩, .inl ⟨hst, rfl⟩, ⟨hbeeps, rfl⟩⟩

/-- `ins`, which leads from s to t, does the same under the overlay. -/
abbrev Simulates (ins : Instr) (s t : State) (o : Overlay) : Prop :=
  ∃ o', exec ins (o.on s) = .next (o'.on t) ∧ o.Follows ins s t o'

/-! ## The two ways an instruction ends -/

theorem Overlay.applyOutcome_on (o : Overlay) (s : State) (out : PcOutcome) :
    (o.on s).applyOutcome out = o.on (s.applyOutcome out) := by
  cases out <;> rfl

theorem simulates_of_complete {ins : Instr} {s u : State} {o o' : Overlay} {out : PcOutcome}
    (hexec : exec ins (o.on s) = complete out (o'.on u)) (hfollows : o.Follows ins s (u.applyOutcome out) o') :
    Simulates ins s (u.applyOutcome out) o :=
  ⟨o', hexec.trans (congrArg Host.Outcome.next (o'.applyOutcome_on u out)), hfollows⟩

/-- A completing instruction that writes nothing overlaid. -/
theorem simulates_of_complete_kept {ins : Instr} {s u : State} {o : Overlay} {out : PcOutcome}
    (hexec : exec ins (o.on s) = complete out (o.on u)) (hstack : u.stack = s.stack) (hkey : u.key = s.key)
    (hdirty : u.dirty = s.dirty) (hst : u.st = s.st) (hbeeps : u.beeps = s.beeps) :
    Simulates ins s (u.applyOutcome out) o :=
  simulates_of_complete hexec (.kept o (by simpa) (by simpa) (by simpa) (by simpa) (by simpa))

/-- Raising writes RUN and FAULT, which are not overlaid, and reads PC. -/
theorem simulates_of_raise {ins : Instr} {s : State} {o : Overlay} {c : Condition} {addr : Option Nat}
    (hexec : exec ins (o.on s) = raise ins c addr (o.on s)) : Simulates ins s (s.halt c (some (encode ins)) addr) o :=
  ⟨o, hexec, .kept o rfl rfl rfl rfl rfl⟩

/-! ## The operations under an overlay -/

theorem Overlay.pop_on {o : Overlay} {s : State} (h : o.stack = s.stack) :
    (o.on s).pop = s.pop.map fun p => (p.1, o.on p.2) := by
  by_cases hsp : 0 < s.sp.val <;> simp only [State.pop, Overlay.on, h, hsp] <;> rfl

theorem Overlay.push_on {o : Overlay} {s : State} (h : o.stack = s.stack) (ra : Word) :
    (o.on s).push ra = (s.push ra).map fun u => { o with stack := u.stack }.on u := by
  by_cases hsp : s.sp.val < Config.stackDepth <;> simp only [State.push, Overlay.on, h, hsp] <;> rfl

/-- The check of an instruction's addresses reads nothing overlaid, so only its body matters. -/
theorem simulates_withAddresses {ins : Instr} {s t : State} {o : Overlay} {base n : Nat} {body body' : Outcome}
    (hexec : exec ins s = withAddresses ins base n s body)
    (hexec' : exec ins (o.on s) = withAddresses ins base n (o.on s) body') (ht : exec ins s = .next t)
    (hbody : body = .next t → ∃ o', body' = .next (o'.on t) ∧ o.Follows ins s t o') : Simulates ins s t o := by
  rw [hexec] at ht
  unfold withAddresses at ht hexec'
  rcases hcheck : firstOutOfBounds base n with _ | a
  · simp only [hcheck] at ht hexec'
    obtain ⟨o', hbody', hfollows⟩ := hbody ht
    exact ⟨o', hexec'.trans hbody', hfollows⟩
  · simp only [hcheck] at ht hexec'
    cases ht
    exact simulates_of_raise hexec'

/-- EX9E and EXA1 read the key of V[x] and nothing overlaid else. -/
theorem simulates_skipIfKey {ins : Instr} {s t : State} {o : Overlay} {x : RegIdx} {down : Bool}
    (hexec : ∀ u, exec ins u = skipIfKey ins x down u) (hkey : o.key = s.key) (ht : exec ins s = .next t) :
    Simulates ins s t o := by
  have hon : exec ins (o.on s) = skipIfKey ins x down (o.on s) := hexec (o.on s)
  rw [hexec] at ht
  rcases hk : keyNumber s.cfg.keyIndexPolicy (s.reg x) with _ | k
  · have hk' : keyNumber (o.on s).cfg.keyIndexPolicy ((o.on s).reg x) = none := hk
    simp only [skipIfKey, hk] at ht
    simp only [skipIfKey, hk'] at hon
    cases ht
    exact simulates_of_raise hon
  · have hk' : keyNumber (o.on s).cfg.keyIndexPolicy ((o.on s).reg x) = some k := hk
    simp only [skipIfKey, hk] at ht
    simp only [skipIfKey, hk'] at hon
    cases ht
    refine simulates_of_complete_kept (hon.trans ?_) rfl rfl rfl rfl rfl
    simp only [Overlay.on, hkey]
    rfl

/-! ## Every instruction -/

/-- With the stack as it was, unless the instruction uses neither stack nor SP, and the keys as they were, unless it
reads none, every instruction does the same under an overlay. -/
theorem simulates_of_exec {ins : Instr} {s t : State} {o : Overlay}
    (hstack : o.stack = s.stack ∨ ins ≠ .ret ∧ ∀ nnn, ins ≠ .call nnn)
    (hkey : o.key = s.key ∨ ∀ x, ins ≠ .skp x ∧ ins ≠ .sknp x ∧ ins ≠ .ldXK x) (ht : exec ins s = .next t) :
    Simulates ins s t o := by
  cases ins with
  | cls =>
    cases ht
    exact simulates_of_complete (o' := { o with dirty := true }) rfl
      ⟨.inl ⟨rfl, rfl⟩, ⟨rfl, rfl⟩, .inr ⟨rfl, rfl, .inl rfl⟩, .inl ⟨rfl, rfl⟩, ⟨rfl, rfl⟩⟩
  | ldStX x =>
    cases ht
    exact simulates_of_complete (o' := { o with st := s.reg x }) rfl
      ⟨.inl ⟨rfl, rfl⟩, ⟨rfl, rfl⟩, .inl ⟨rfl, rfl⟩, .inr ⟨rfl, x, rfl⟩, ⟨rfl, rfl⟩⟩
  | ret =>
    have hpop := Overlay.pop_on (hstack.resolve_right fun h => h.1 rfl)
    rcases s.pop_cases with ⟨_, hs⟩ | ⟨_, hs⟩ <;> rw [hs] at hpop
    · rw [exec_ret_of_pop_eq_some hs] at ht
      cases ht
      exact simulates_of_complete_kept (exec_ret_of_pop_eq_some hpop) rfl rfl rfl rfl rfl
    · rw [exec_ret_of_pop_eq_none hs] at ht
      cases ht
      exact simulates_of_raise (exec_ret_of_pop_eq_none hpop)
  | call nnn =>
    have hsame := hstack.resolve_right fun h => h.2 nnn rfl
    have hpush : (o.on s).push (o.on s).pc = _ := Overlay.push_on hsame s.pc
    rcases s.push_cases s.pc with ⟨_, hs⟩ | ⟨_, hs⟩ <;> rw [hs] at hpush
    · rw [exec_call_of_push_eq_some hs] at ht
      cases ht
      exact simulates_of_complete (exec_call_of_push_eq_some hpush)
        ⟨.inr ⟨rfl, hsame, nnn, rfl⟩, ⟨rfl, rfl⟩, .inl ⟨rfl, rfl⟩, .inl ⟨rfl, rfl⟩, ⟨rfl, rfl⟩⟩
    · rw [exec_call_of_push_eq_none hs] at ht
      cases ht
      exact simulates_of_raise (exec_call_of_push_eq_none hpush)
  | skp x => exact simulates_skipIfKey (fun _ => rfl) (hkey.resolve_right fun h => (h x).1 rfl) ht
  | sknp x => exact simulates_skipIfKey (fun _ => rfl) (hkey.resolve_right fun h => (h x).2.1 rfl) ht
  | ldXK x =>
    have hsame : (o.on s).key = s.key := hkey.resolve_right fun h => (h x).2.2 rfl
    rcases hs : lowestKeyDown s.key with _ | k
    · rw [exec_ldXK_of_lowestKeyDown_eq_none hs] at ht
      cases ht
      exact simulates_of_complete_kept (exec_ldXK_of_lowestKeyDown_eq_none (hsame ▸ hs)) rfl rfl rfl rfl rfl
    · rw [exec_ldXK_of_lowestKeyDown_eq_some hs] at ht
      cases ht
      exact simulates_of_complete_kept (exec_ldXK_of_lowestKeyDown_eq_some (hsame ▸ hs)) rfl rfl rfl rfl rfl
  | drw x y n =>
    refine simulates_withAddresses rfl rfl ht fun hbody => ?_
    cases hbody
    exact ⟨{ o with dirty := true }, rfl,
      .inl ⟨rfl, rfl⟩, ⟨rfl, rfl⟩, .inr ⟨rfl, rfl, .inr ⟨x, y, n, rfl⟩⟩, .inl ⟨rfl, rfl⟩, ⟨rfl, rfl⟩⟩
  | ldBX x =>
    refine simulates_withAddresses rfl rfl ht fun hbody => ?_
    cases hbody
    exact ⟨o, rfl, .kept o rfl rfl rfl rfl rfl⟩
  | ldMiX x =>
    refine simulates_withAddresses rfl rfl ht fun hbody => ?_
    cases hbody
    exact ⟨o, congrArg (fun u => complete .next (u.advanceI x)) (o.pokes_on _ s s.base),
      .kept o (by simp) (by simp) (by simp) (by simp) (by simp)⟩
  | ldXMi x =>
    refine simulates_withAddresses rfl rfl ht fun hbody => ?_
    cases hbody
    exact ⟨o, congrArg (fun u => complete .next (u.advanceI x)) (o.setRegs_on _ s 0),
      .kept o (by simp) (by simp) (by simp) (by simp) (by simp)⟩
  | _ =>
    cases ht
    exact simulates_of_complete_kept rfl rfl rfl rfl rfl rfl

end Sys2Proof.Claims
end

section
/-! PROOFS. The three statements of what is not observed, from the one simulation (10_state.md sections 5 to 8). -/

namespace Sys2Proof.Claims

open Sys2Proof.Machine

/-! ## A piece with the same value before has the same value after -/

section

variable {ins : Instr} {s t : State} {o o' : Overlay}

theorem Overlay.Follows.stack_eq (h : o.Follows ins s t o') (hs : o.stack = s.stack) : o'.stack = t.stack := by
  rcases h.stack with ⟨ht, ho⟩ | ⟨ht, -⟩
  · rw [ho, hs, ht]
  · exact ht.symm

theorem Overlay.Follows.key_eq (h : o.Follows ins s t o') (hs : o.key = s.key) : o'.key = t.key := by
  rw [h.key.1, h.key.2, hs]

theorem Overlay.Follows.dirty_eq (h : o.Follows ins s t o') (hs : o.dirty = s.dirty) : o'.dirty = t.dirty := by
  rcases h.dirty with ⟨ht, ho⟩ | ⟨ht, ho, -⟩
  · rw [ho, hs, ht]
  · rw [ho, ht]

theorem Overlay.Follows.st_eq (h : o.Follows ins s t o') (hs : o.st = s.st) : o'.st = t.st := by
  rcases h.st with ⟨ht, ho⟩ | ⟨ht, -⟩
  · rw [ho, hs, ht]
  · exact ht.symm

theorem Overlay.Follows.beeps_eq (h : o.Follows ins s t o') (hs : o.beeps = s.beeps) : o'.beeps = t.beeps := by
  rw [h.beeps.1, h.beeps.2, hs]

end

/-- Settles O53: an instruction that reads no key does the same under other keys, and every other piece, the same
before, is the same after. -/
theorem keysAreSeenByThreeInstructions : Obligations.KeysAreSeenByThreeInstructions := by
  intro ins s t key hins hexec
  let o : Overlay := ⟨s.stack, key, s.dirty, s.st, s.beeps⟩
  obtain ⟨o', hexec', hfollows⟩ := simulates_of_exec (o := o) (.inl rfl) (.inr hins) hexec
  refine hexec'.trans (congrArg Host.Outcome.next ?_)
  have hkey : o'.key = key := hfollows.key.2
  rw [Overlay.on, hfollows.stack_eq rfl, hkey, hfollows.dirty_eq rfl, hfollows.st_eq rfl, hfollows.beeps_eq rfl]

/-- Settles O54: under other values of DIRTY, ST and the beep record every instruction does the same; which of the two
it writes, and who does, is what the simulation says of each. -/
theorem hostFacingStateIsNotRead : Obligations.HostFacingStateIsNotRead := by
  intro ins s t dirty st beeps hexec
  let o : Overlay := ⟨s.stack, s.key, dirty, st, beeps⟩
  obtain ⟨o', hexec', hfollows⟩ := simulates_of_exec (o := o) (.inl rfl) (.inl rfl) hexec
  refine ⟨o'.on t, hexec', ?_, hfollows.dirty, hfollows.st⟩
  have hbeeps : o'.beeps = beeps := hfollows.beeps.2
  rw [Overlay.on, hfollows.stack_eq rfl, hfollows.key_eq rfl, hbeeps]

/-! ## Stale stack entries -/

theorem sameButStaleStack_iff {s s' : State} : SameButStaleStack s s' ↔ ∃ stack : Vector Word 16,
    s' = { s with stack := stack } ∧ ∀ j : Fin 16, j.val < s.sp.val → stack[j] = s.stack[j] := by
  constructor
  · exact fun ⟨heq, hbelow⟩ => ⟨s'.stack, heq, hbelow⟩
  · rintro ⟨stack, rfl, hbelow⟩
    exact ⟨rfl, hbelow⟩

/-- RET reads the entry below SP alone, and leaves fewer entries in use. -/
theorem ret_keeps_sameButStaleStack {s s' t : State} (h : SameButStaleStack s s') (hexec : exec .ret s = .next t) :
    ∃ t', exec .ret s' = .next t' ∧ SameButStaleStack t t' := by
  obtain ⟨stack, rfl, hbelow⟩ := sameButStaleStack_iff.1 h
  by_cases hpos : 0 < s.sp.val
  · have htop : stack[s.sp.val - 1] = s.stack[s.sp.val - 1] := hbelow ⟨s.sp.val - 1, by omega⟩ (Nat.pred_lt_of_lt hpos)
    simp only [exec, execRet, State.pop, hpos, dite_true, htop] at hexec ⊢
    cases hexec
    exact ⟨_, rfl, sameButStaleStack_iff.2 ⟨stack, rfl, fun j hj => hbelow j (Nat.lt_of_lt_pred hj)⟩⟩
  · simp only [exec, execRet, State.pop, hpos, dite_false] at hexec ⊢
    cases hexec
    exact ⟨_, rfl, sameButStaleStack_iff.2 ⟨stack, rfl, hbelow⟩⟩

/-- CALL writes the same address at the same entry, the only one it puts in use. -/
theorem call_keeps_sameButStaleStack {nnn : Addr} {s s' t : State} (h : SameButStaleStack s s')
    (hexec : exec (.call nnn) s = .next t) : ∃ t', exec (.call nnn) s' = .next t' ∧ SameButStaleStack t t' := by
  obtain ⟨stack, rfl, hbelow⟩ := sameButStaleStack_iff.1 h
  by_cases hfree : s.sp.val < Config.stackDepth
  · simp only [exec, execCall, State.push, hfree, dite_true] at hexec ⊢
    cases hexec
    refine ⟨_, rfl, sameButStaleStack_iff.2 ⟨stack.set s.sp.val s.pc, rfl, fun j hj => ?_⟩⟩
    have hle : j.val ≤ s.sp.val := Nat.le_of_lt_succ hj
    simp only [State.applyOutcome, Fin.getElem_fin, Vector.getElem_set]
    split
    · rfl
    · exact hbelow j (by omega)
  · simp only [exec, execCall, State.push, hfree, dite_false] at hexec ⊢
    cases hexec
    exact ⟨_, rfl, sameButStaleStack_iff.2 ⟨stack, rfl, hbelow⟩⟩

/-- Settles O55: RET and CALL keep the relation by what they do at SP, and every other instruction does the same under
any stack and leaves SP alone. -/
theorem staleStackEntriesAreUnobservable : Obligations.StaleStackEntriesAreUnobservable := by
  intro ins s s' t h hexec
  by_cases hret : ins = .ret
  · subst hret
    exact ret_keeps_sameButStaleStack h hexec
  by_cases hcall : ∃ nnn, ins = .call nnn
  · obtain ⟨nnn, rfl⟩ := hcall
    exact call_keeps_sameButStaleStack h hexec
  have hno : ∀ nnn, ins ≠ .call nnn := fun nnn hins => hcall ⟨nnn, hins⟩
  obtain ⟨stack, rfl, hbelow⟩ := sameButStaleStack_iff.1 h
  obtain ⟨⟨hsp, hstack⟩, -, -⟩ := (stackDisplayAndIndexWrittenOnlyWhereNamed ins s t hexec).imp_left (· hret hno)
  let o : Overlay := ⟨stack, s.key, s.dirty, s.st, s.beeps⟩
  obtain ⟨o', hexec', hfollows⟩ := simulates_of_exec (o := o) (.inr ⟨hret, hno⟩) (.inl rfl) hexec
  have hnew : o'.stack = stack := hfollows.stack.elim (·.2) fun ⟨_, _, nnn, hins⟩ => absurd hins (hno nnn)
  refine ⟨o'.on t, hexec', sameButStaleStack_iff.2 ⟨stack, ?_, fun j hj => ?_⟩⟩
  · rw [Overlay.on, hnew, hfollows.key_eq rfl, hfollows.dirty_eq rfl, hfollows.st_eq rfl, hfollows.beeps_eq rfl]
  · rw [hstack]
    exact hbelow j (hsp ▸ hj)

end Sys2Proof.Claims
end

section
/-! PROOFS. The instruction cycle (40_cycle.md): what the step after a fetched instruction is, what the end of a step
does, and the statements about single steps. -/

namespace Sys2Proof.Machine

open Sys2Proof.Claims

/-! ## The end of a step touches the timers and the beep record alone -/

@[simp] theorem State.endStep_pc (s : State) : s.endStep.pc = s.pc := by unfold State.endStep; split <;> rfl
@[simp] theorem State.endStep_stack (s : State) : s.endStep.stack = s.stack := by unfold State.endStep; split <;> rfl
@[simp] theorem State.endStep_mem (s : State) : s.endStep.mem = s.mem := by unfold State.endStep; split <;> rfl
@[simp] theorem State.endStep_run (s : State) : s.endStep.run = s.run := by unfold State.endStep; split <;> rfl
@[simp] theorem State.endStep_fault (s : State) : s.endStep.fault = s.fault := by unfold State.endStep; split <;> rfl
@[simp] theorem State.endStep_cfg (s : State) : s.endStep.cfg = s.cfg := by unfold State.endStep; split <;> rfl

theorem State.endStep_of_halted {s : State} (h : s.run = .halted) : s.endStep = s := if_pos h

theorem State.endStep_of_not_halted {s : State} (h : s.run ≠ .halted) : s.endStep = s.timerTick := if_neg h

theorem toNat_tickDown (t : Byte) : (tickDown t).toNat = t.toNat - 1 := by
  unfold tickDown
  split
  · next h => simp [h]
  · next h => exact BitVec.toNat_sub_of_le (by simpa [BitVec.le_def, Nat.one_le_iff_ne_zero, BitVec.toNat_eq] using h)

/-! ## The fetch -/

/-- With both bytes inside memory the fetch answers them, big-endian (R58, R91). -/
theorem State.fetch_of_inBounds {s : State} (h : s.pc.toNat + 1 < 4096) :
    s.fetch = .ok (s.peek s.pc.toNat ++ s.peek (s.pc.toNat + 1)) := by
  rcases s.fetch_cases with ⟨-, hfetch⟩ | ⟨hpast, -⟩
  · exact hfetch
  · omega

theorem State.fetch_of_past {s : State} (h : 4096 ≤ s.pc.toNat + 1) : s.fetch = .error (max s.pc.toNat 4096) := by
  rcases s.fetch_cases with ⟨hfits, -⟩ | ⟨-, hfetch⟩
  · omega
  · exact hfetch

/-- An instruction is fetched only from a PC whose two bytes exist. -/
theorem State.pc_le_of_fetch_eq_ok {s : State} {op : Word} (h : s.fetch = .ok op) : s.pc.toNat ≤ 0xFFE := by
  rcases s.fetch_cases with ⟨hfits, -⟩ | ⟨-, hfetch⟩
  · omega
  · cases hfetch.symm.trans h

/-! ## One step -/

theorem exists_exec (ins : Instr) (s : State) : ∃ t, exec ins s = .next t := by
  rcases exec_cases ins s with ⟨t, ht, -⟩ | ⟨c, addr, ht, -⟩
  · exact ⟨t, ht⟩
  · exact ⟨_, ht⟩

theorem step_of_not_running {s : State} (h : s.run ≠ .running) : step s = .next s := by
  rcases step_cases s with ⟨-, hstep⟩ | ⟨hrun, -⟩ | ⟨hrun, -⟩ | ⟨hrun, -⟩
  · exact hstep
  all_goals exact absurd hrun h

theorem step_of_fetch_eq_error {s : State} {a : Nat} (hrun : s.run = .running) (hfetch : s.fetch = .error a) :
    step s = .next (s.fetchFault a) := by
  simp only [step, hrun, hfetch]

theorem step_of_exec {s t : State} {op : Word} {ins : Instr} (hrun : s.run = .running) (hfetch : s.fetch = .ok op)
    (hdecode : decodeWord op = .instr ins) (hexec : exec ins s = .next t) : step s = .next t.endStep := by
  simp only [step, hrun, hfetch, hdecode, hexec]

/-- Where a step leads from s. -/
inductive StepTo (s : State) : State → Prop where
  | still : s.run ≠ .running → StepTo s s
  | fetchFault : s.run = .running → s.fetch = .error (max s.pc.toNat 4096) → 4096 ≤ s.pc.toNat + 1 →
      StepTo s (s.fetchFault (max s.pc.toNat 4096))
  | illegalWord {op : Word} : s.run = .running → s.fetch = .ok op → decodeWord op = .unrecognized →
      StepTo s (s.illegalWord op)
  | instr {op : Word} {ins : Instr} {u : State} : s.run = .running → s.fetch = .ok op → decodeWord op = .instr ins →
      exec ins s = .next u → StepTo s u.endStep

theorem stepTo_of_step {s t : State} (h : step s = .next t) : StepTo s t := by
  rcases step_cases s with ⟨hrun, hstep⟩ | ⟨hrun, a, hfetch, hstep⟩ | ⟨hrun, op, hfetch, hdecode, hstep⟩ |
    ⟨hrun, op, ins, hfetch, hdecode, hstep⟩
  · cases hstep.symm.trans h
    exact .still hrun
  · cases hstep.symm.trans h
    rcases s.fetch_cases with ⟨-, hfetch'⟩ | ⟨hpast, hfetch'⟩
    · cases hfetch.symm.trans hfetch'
    · cases hfetch.symm.trans hfetch'
      exact .fetchFault hrun hfetch' hpast
  · cases hstep.symm.trans h
    exact .illegalWord hrun hfetch hdecode
  · obtain ⟨u, hexec⟩ := exists_exec ins s
    cases (hstep u hexec).symm.trans h
    exact .instr hrun hfetch hdecode hexec

/-- Settles O11: the two faults before an instruction are next states, and every instruction answers one. -/
theorem everyStepAnswersANextState : Obligations.EveryStepAnswersANextState := by
  intro s
  rcases step_cases s with ⟨-, hstep⟩ | ⟨-, a, -, hstep⟩ | ⟨-, op, -, -, hstep⟩ | ⟨-, op, ins, -, -, hstep⟩
  · exact ⟨_, hstep⟩
  · exact ⟨_, hstep⟩
  · exact ⟨_, hstep⟩
  · obtain ⟨t, hexec⟩ := exists_exec ins s
    exact ⟨_, hstep t hexec⟩

/-- Settles O7: the two bytes at PC are the fetch's word, and the end of the step is the tick. -/
theorem stepRunsTheDecodedInstruction : Obligations.StepRunsTheDecodedInstruction := fun _ _ _ hrun hpc hdecode hexec =>
  step_of_exec hrun (State.fetch_of_inBounds hpc) hdecode hexec

/-- Settles O8: a step from Idle or Halted is no move, and the host's other moves write a key or DIRTY. -/
theorem onlyALoadLeavesIdleOrHalted : Obligations.OnlyALoadLeavesIdleOrHalted := by
  intro s hrun
  have hstep : step s = .next s := step_of_not_running (by rcases hrun with h | h <;> simp [h])
  refine ⟨hstep, fun m t hafter hload => ?_⟩
  cases m with
  | step =>
    cases hstep.symm.trans hafter
    exact ⟨rfl, rfl, rfl⟩
  | load bytes => exact absurd rfl (hload bytes)
  | keySet _ _ | dirtyClear =>
    cases hafter
    exact ⟨rfl, rfl, rfl⟩

/-- Settles O9: the fetch answers the first address that does not exist, and its fault writes RUN and FAULT alone. -/
theorem fetchPastMemoryIsFatal : Obligations.FetchPastMemoryIsFatal := by
  intro s hrun hpast
  have hfirst : max s.pc.toNat 4096 = if 4096 ≤ s.pc.toNat then s.pc.toNat else 4096 := by split <;> omega
  rw [step_of_fetch_eq_error hrun (State.fetch_of_past hpast), hfirst]
  rfl

/-- Settles O12: the jump's target is PC itself, so the step is the tick. -/
theorem parkedStepOnlyTicksTheTimers : Obligations.ParkedStepOnlyTicksTheTimers := by
  rintro s ⟨hrun, hpc, hfetch⟩
  have htarget : (s.pc.setWidth 12).setWidth 16 = s.pc := by
    apply BitVec.eq_of_toNat_eq
    simp only [BitVec.toNat_setWidth]
    omega
  have hjump : exec (.jp (s.pc.setWidth 12)) s = .next s := by
    rw [exec_jp, htarget]
    rfl
  rw [step_of_exec hrun hfetch (decodeWord_encode _) hjump, State.endStep_of_not_halted (by simp [hrun])]
  rfl

/-- What a completed step was: an instruction that did not raise, and the tick. -/
theorem step_of_running_after {s u : State} {op : Word} {ins : Instr} (hrun : s.run = .running)
    (hfetch : s.fetch = .ok op) (hdecode : decodeWord op = .instr ins) (hstep : step s = .next u)
    (hafter : u.run = .running) : ∃ t, exec ins s = .next t ∧ t.beeps = s.beeps ∧ u = t.timerTick := by
  rcases exec_cases ins s with ⟨t, hexec, hkept, -, -, hbeeps, -⟩ | ⟨c, addr, hexec, -⟩
  · refine ⟨t, hexec, hbeeps, ?_⟩
    cases (step_of_exec hrun hfetch hdecode hexec).symm.trans hstep
    exact State.endStep_of_not_halted (by simp [hkept, hrun])
  · cases (step_of_exec hrun hfetch hdecode hexec).symm.trans hstep
    simp at hafter

/-- Settles O13, by induction on the run: no instruction but FX15 writes DT, so each step takes one from it. -/
theorem delayTimerCountsSteps : Obligations.DelayTimerCountsSteps := by
  intro k s t hruns
  induction hruns with
  | zero s => rfl
  | @succ k s u t op ins hrun hfetch hdecode hins hstep hafter _ ih =>
    obtain ⟨v, hexec, -, rfl⟩ := step_of_running_after hrun hfetch hdecode hstep hafter
    obtain ⟨-, hdt, -⟩ := registersAndTimersWrittenOnlyWhereNamed ins s v hexec
    rw [ih, State.timerTick_dt, toNat_tickDown, hdt fun x hx => hins ⟨x, hx⟩]
    omega

/-- Settles O14, by induction on the run: no instruction but FX18 writes ST, so each step takes one from it, and the
step that finds 1 there beeps. -/
theorem soundTimerBeepsOnceWhenItRunsOut : Obligations.SoundTimerBeepsOnceWhenItRunsOut := by
  intro k s t hruns
  induction hruns with
  | zero s => exact ⟨rfl, by rw [if_neg (by omega)]; rfl⟩
  | @succ k s u t op ins hrun hfetch hdecode hins hstep hafter _ ih =>
    obtain ⟨v, hexec, hbeeps, rfl⟩ := step_of_running_after hrun hfetch hdecode hstep hafter
    obtain ⟨-, -, hst⟩ := registersAndTimersWrittenOnlyWhereNamed ins s v hexec
    obtain ⟨ihst, ihbeeps⟩ := ih
    have hv : v.st = s.st := hst fun x hx => hins ⟨x, hx⟩
    have hone : s.st = 1 ↔ s.st.toNat = 1 := by rw [BitVec.toNat_eq]; rfl
    rw [State.timerTick_st, hv, toNat_tickDown] at ihst ihbeeps
    rw [State.timerTick_beeps, hv, hbeeps] at ihbeeps
    refine ⟨by omega, ?_⟩
    rw [ihbeeps]
    simp only [hone]
    split_ifs <;> omega

end Sys2Proof.Machine
end

section
/-! PROOFS. Reset, load and the host's other transactions (70_reset_and_hazards.md section 1, 60_exceptions.md section
5). -/

namespace Sys2Proof.Machine

open Sys2Proof.Claims

theorem State.reg_reset (x : RegIdx) : State.reset.reg x = 0 := by
  simp [State.reg, State.reset]

theorem State.stack_reset (j : Fin 16) : State.reset.stack[j] = 0 := by
  simp [State.reset]

theorem State.key_reset (k : Fin 16) : State.reset.key[k] = false := by
  simp [State.reset]

/-- With no image written, memory is the reset contents. -/
theorem State.peek_reset (a : Nat) : State.reset.peek a = State.reset.cfg.resetByte a := rfl

/-- The reset contents are the font table inside its 80 bytes (R55, R56). -/
theorem Params.resetByte_font (p : Params) (k : Fin 80) : p.resetByte (p.fontBase.toNat + k.val) = p.fontData[k] := by
  simp [Params.resetByte]

theorem Params.resetByte_outside {p : Params} {a : Nat} (h : a < p.fontBase.toNat ∨ p.fontBase.toNat + 80 ≤ a) :
    p.resetByte a = 0 := dif_neg (by omega)

/-- Settles O1: the registers, the stack, the keys and the framebuffer are constant, memory is the reset contents with
the font at its default base, and the rest is written out. -/
theorem resetHoldsTheTableOfR250 : Obligations.ResetHoldsTheTableOfR250 :=
  ⟨State.reg_reset, rfl, rfl, rfl, State.stack_reset, rfl, rfl, Framebuffer.cell_clear, rfl, State.key_reset, rfl, rfl,
   fun k => (State.peek_reset _).trans (Params.resetByte_font _ k),
   fun a ha => (State.peek_reset a).trans (Params.resetByte_outside ha)⟩

/-- A restart writes memory over a reset state, and nothing else. -/
theorem State.restart_eq (s : State) (bytes : List Byte) : s.restart bytes =
    { State.reset with draws := s.draws, beeps := s.beeps, cfg := s.cfg, mem := (s.restart bytes).mem } := by
  ext1 <;> simp [State.restart]

/-- Settles O3: a load that fits is a restart, whose memory is O2's and whose every other piece is the reset state's
or one that goes on. -/
theorem loadResetsTheWholeCore : Obligations.LoadResetsTheWholeCore := by
  intro s bytes hfits
  have hmem := State.peek_restart s hfits
  rw [State.load_of_le_capacity s hfits]
  rw [State.restart_eq] at hmem ⊢
  exact ⟨rfl, State.reg_reset, rfl, rfl, rfl, State.stack_reset, rfl, rfl, Framebuffer.cell_clear, rfl, State.key_reset,
    rfl, rfl, fun a _ => hmem a, rfl, rfl, rfl⟩

theorem State.load_of_capacity_lt (s : State) {bytes : List Byte} (h : Config.progCapacity < bytes.length) :
    s.load bytes = (.capacityExceeded, s.failedLoad) := if_pos h

/-- Settles O4: the failed load is chosen by LOAD_FAIL_RESETS, and the empty image always fits. -/
theorem failedLoadLeavesTheEngineIdle : Obligations.FailedLoadLeavesTheEngineIdle := by
  intro s bytes hlong
  have hempty : s.load [] = (.ok, s.restart []) := s.load_of_le_capacity (Nat.zero_le _)
  rw [s.load_of_capacity_lt hlong, hempty]
  exact ⟨rfl, fun hkeep => if_neg (by simp [hkeep]), fun hreset => if_pos hreset⟩

/-- Settles O5: each of the two moves is one write, and a write to one key leaves the others. -/
theorem keySetAndDirtyClearWriteOneBit : Obligations.KeySetAndDirtyClearWriteOneBit := by
  refine fun s k b => ⟨⟨?_, fun j hj => ?_, rfl⟩, rfl⟩
  · simp
  · have hne : k.val ≠ j.val := fun h => hj (Fin.ext h.symm)
    simp [Vector.getElem_set_ne _ _ hne]

/-- The host's list of cells is the rows one after the other. -/
theorem State.fbRead_eq (s : State) : s.fbRead = (s.fb.flatten.toList, s.dirty) := by
  simp only [State.fbRead, Vector.flatten, Vector.toList, Array.toList_flatten, Array.toList_map, List.map_map,
    List.flatMap_def]
  rfl

/-- Settles O6: element y * 64 + x of the rows one after the other is column x of row y. -/
theorem framebufferReadIsRowMajor : Obligations.FramebufferReadIsRowMajor := by
  intro s
  rw [State.fbRead_eq]
  refine ⟨by simp, rfl, fun px py => ?_⟩
  have hlt : py.val * 64 + px.val < 32 * 64 := by omega
  have hrow : (py.val * 64 + px.val) / 64 = py.val := by omega
  have hcol : (py.val * 64 + px.val) % 64 = px.val := by omega
  rw [Vector.getElem?_toList, Vector.getElem?_eq_getElem hlt, Vector.getElem_flatten]
  simp only [hrow, hcol]
  rfl

/-! ## The word placed where the next step fetches -/

/-- A word whose bytes stand at PC is what the fetch answers. -/
theorem State.fetch_pokes_bytesOfWord {s : State} (hs : s.MemoryCanonical) (hpc : s.pc.toNat + 1 < 4096) (w : Word) :
    (s.pokes s.pc.toNat (bytesOfWord w)).fetch = .ok w := by
  have hread := State.peek_pokes_same (bytesOfWord w) s hs s.pc.toNat (Nat.succ_le_of_lt hpc)
  generalize hu : s.pokes s.pc.toNat (bytesOfWord w) = u at hread
  have hhi : u.peek s.pc.toNat = w.extractLsb' 8 8 := hread 0 Nat.zero_lt_two
  have hlo : u.peek (s.pc.toNat + 1) = w.extractLsb' 0 8 := hread 1 Nat.one_lt_two
  have hupc : u.pc = s.pc := hu ▸ State.pokes_pc _ _ _
  rw [State.fetch_of_inBounds (hupc ▸ hpc), hupc, hhi, hlo]
  exact congrArg Except.ok (wordOfBytes_bytesOfWord w)

/-- Settles O15: the two bytes at PC are the word's, big-endian, and storing them writes nothing else. -/
theorem placedWordIsFetchedNext : Obligations.PlacedWordIsFetchedNext := by
  intro s w _ hpc hcanonical
  have hplaced : s.withFetchWord 16 w =
      ({ s with run := .running } : State).pokes s.pc.toNat (bytesOfWord (BitVec.ofNat 16 w)) := if_pos hpc
  rw [hplaced]
  exact ⟨State.pokes_run _ _ _, State.fetch_pokes_bytesOfWord hcanonical hpc _, State.pokes_pc _ _ _,
    (Unchanged.refl _ _).pokes le_rfl le_rfl⟩

end Sys2Proof.Machine
end

section
/-! PROOFS. The invariants of the core, kept by every transaction, and the precision of a fatal step (10_state.md,
20_memory.md, 60_exceptions.md section 1, 70_reset_and_hazards.md section 1). -/

namespace Sys2Proof.Machine

open Sys2Proof.Claims

/-! ## What a load leaves, fit or not -/

/-- A load ends in a restart, Running or, if it failed, Idle; or it failed and only made the old state Idle. -/
theorem State.load_cases (s : State) (bytes : List Byte) :
    (∃ image : List Byte, image.length ≤ Config.progCapacity ∧
      ((s.load bytes).2 = s.restart image ∨ (s.load bytes).2 = { s.restart image with run := .idle })) ∨
    (s.load bytes).2 = { s with run := .idle } := by
  by_cases hfits : bytes.length ≤ Config.progCapacity
  · exact .inl ⟨bytes, hfits, .inl (by rw [s.load_of_le_capacity hfits])⟩
  · rw [s.load_of_capacity_lt (Nat.lt_of_not_le hfits)]
    by_cases hreset : s.cfg.loadFailResets = true
    · exact .inl ⟨[], Nat.zero_le _, .inr (if_pos hreset)⟩
    · exact .inr (if_neg hreset)

/-! ## Memory stays canonical -/

theorem State.restart_canonical (s : State) {bytes : List Byte} (h : bytes.length ≤ Config.progCapacity) :
    (s.restart bytes).MemoryCanonical :=
  State.pokes_canonical bytes Memory.nil_wf (Nat.add_le_of_le_sub' (by decide) h)

theorem exec_canonical {ins : Instr} {s t : State} (hs : s.MemoryCanonical) (hexec : exec ins s = .next t) :
    t.MemoryCanonical := by
  rcases exec_effect ins s with ⟨o, u, hu, heffect⟩ | ⟨c, addr, hu⟩
  · cases hu.symm.trans hexec
    simpa [State.MemoryCanonical] using heffect.canonical hs
  · cases hu.symm.trans hexec
    exact hs

/-- Settles O58: memory is written by an instruction or by a load, inside the address space both. -/
theorem memoryStaysCanonical : Obligations.MemoryStaysCanonical := by
  intro s t m hs hafter
  cases m with
  | step =>
    cases stepTo_of_step hafter with
    | still _ => exact hs
    | fetchFault _ _ _ => exact hs
    | illegalWord _ _ _ => exact hs
    | instr _ _ _ hexec => simpa [State.MemoryCanonical] using exec_canonical hs hexec
  | load bytes =>
    cases hafter
    rcases s.load_cases bytes with ⟨image, hfits, h | h⟩ | h <;> rw [h]
    · exact s.restart_canonical hfits
    · exact s.restart_canonical hfits
    · exact hs
  | keySet _ _ | dirtyClear =>
    cases hafter
    exact hs

/-! ## RUN and FAULT stay consistent -/

/-- Taking a fatal condition records the PC the core still shows. -/
theorem State.halt_faultConsistent (s : State) (c : Condition) (opcode : Option Word) (addr : Option Nat) :
    (s.halt c opcode addr).FaultConsistent := ⟨nofun, fun _ => rfl⟩

theorem State.faultConsistent_of_idle {s : State} (h : s.run = .idle) : s.FaultConsistent := by
  simp [State.FaultConsistent, h]

/-- Settles O59: a completed instruction leaves RUN and FAULT alone, a raising one halts with its PC in the record,
and a load leaves a running core without a fault or an idle one. -/
theorem runAndFaultStayConsistent : Obligations.RunAndFaultStayConsistent := by
  intro s t m hs hafter
  cases m with
  | step =>
    cases stepTo_of_step hafter with
    | still _ => exact hs
    | fetchFault _ _ _ => exact s.halt_faultConsistent _ _ _
    | illegalWord _ _ _ => exact s.halt_faultConsistent _ _ _
    | @instr op ins u hrun _ _ hexec =>
      rcases exec_cases ins s with ⟨u', hu, hrun', hfault, -⟩ | ⟨c, addr, hu, -⟩ <;> cases hu.symm.trans hexec
      · simp [State.FaultConsistent, hrun', hrun, hfault, hs.1 hrun]
      · rw [State.endStep_of_halted rfl]
        exact s.halt_faultConsistent _ _ _
  | load bytes =>
    cases hafter
    rcases s.load_cases bytes with ⟨image, _, h | h⟩ | h <;> rw [h]
    · rw [State.restart_eq]
      exact ⟨fun _ => rfl, nofun⟩
    · exact State.faultConsistent_of_idle rfl
    · exact State.faultConsistent_of_idle rfl
  | keySet _ _ | dirtyClear =>
    cases hafter
    exact hs

/-! ## PC stays bounded -/

theorem State.reset_pcBounded : State.reset.PcBounded :=
  ⟨by decide, fun j => by rw [State.stack_reset]; decide⟩

theorem toNat_add_le {w : Word} {k b : Nat} (hw : w.toNat ≤ b) : (w + BitVec.ofNat 16 k).toNat ≤ b + k := by
  rw [BitVec.toNat_add, BitVec.toNat_ofNat]
  exact (Nat.mod_le _ _).trans (Nat.add_le_add hw (Nat.mod_le _ _))

/-- An outcome that is no jump moves PC by at most two words. -/
theorem State.applyOutcome_pc_le {s : State} {o : PcOutcome} {b : Nat} (hpc : s.pc.toNat ≤ b)
    (ho : ∀ w, o ≠ .goto w) : (s.applyOutcome o).pc.toNat ≤ b + 4 := by
  cases o with
  | next => exact (toNat_add_le hpc).trans (Nat.add_le_add_left (by decide) b)
  | skip => exact toNat_add_le hpc
  | goto w => exact absurd rfl (ho w)
  | hold => exact hpc.trans (by omega)

/-- A raising instruction moves neither PC nor the stack. -/
theorem State.halt_pcBounded {s : State} (hs : s.PcBounded) (c : Condition) (opcode : Option Word) (addr : Option Nat) :
    (s.halt c opcode addr).PcBounded := hs

/-- Where BNNN goes, exactly: the largest sum is far below 2^16 (R117). -/
theorem toNat_offsetTarget (v0 : Byte) (nnn : Addr) :
    (v0.setWidth 16 + nnn.setWidth 16 : Word).toNat = v0.toNat + nnn.toNat := by
  have hv0 := v0.isLt
  have hnnn := nnn.isLt
  rw [BitVec.toNat_add, toNat_setWidth_addr, BitVec.toNat_setWidth_of_le (by decide)]
  omega

/-- The four jumps: a target of 12 bits, V0 more, or two past a return address; and CALL pushes its own address. -/
theorem exec_jump_pcBounded {ins : Instr} {s t : State} (hs : s.PcBounded) (hpc : s.pc.toNat ≤ 0xFFE)
    (hins : Jumps ins) (hexec : exec ins s = .next t) : t.PcBounded := by
  obtain ⟨-, hstack⟩ := hs
  have htarget : ∀ nnn : Addr, (nnn.setWidth 16 : Word).toNat ≤ 0x10FE := fun nnn => by
    have hnnn := nnn.isLt
    rw [toNat_setWidth_addr]
    omega
  rcases hins with rfl | ⟨nnn, rfl | rfl | rfl⟩
  · rcases s.pop_cases with ⟨_, hpop⟩ | ⟨_, hpop⟩
    · cases (exec_ret_of_pop_eq_some hpop).symm.trans hexec
      exact ⟨(toNat_add_le (k := 2) (hstack ⟨s.sp.val - 1, by omega⟩)).trans (by decide), hstack⟩
    · cases (exec_ret_of_pop_eq_none hpop).symm.trans hexec
      exact State.halt_pcBounded ⟨hpc.trans (by decide), hstack⟩ _ _ _
  · cases hexec
    exact ⟨htarget nnn, hstack⟩
  · rcases s.push_cases s.pc with ⟨_, hpush⟩ | ⟨_, hpush⟩
    · cases (exec_call_of_push_eq_some hpush).symm.trans hexec
      refine ⟨htarget nnn, fun j => ?_⟩
      simp only [State.applyOutcome_stack, Fin.getElem_fin, Vector.getElem_set]
      split
      · exact hpc
      · exact hstack j
    · cases (exec_call_of_push_eq_none hpush).symm.trans hexec
      exact State.halt_pcBounded ⟨hpc.trans (by decide), hstack⟩ _ _ _
  · cases hexec
    refine ⟨?_, hstack⟩
    have hv0 := (s.reg 0).isLt
    have hnnn := nnn.isLt
    rw [State.applyOutcome_goto_pc, toNat_offsetTarget]
    omega

/-- Every other instruction, fetched from a PC inside memory, moves it by at most two words. -/
theorem exec_pcBounded {ins : Instr} {s t : State} (hs : s.PcBounded) (hpc : s.pc.toNat ≤ 0xFFE)
    (hexec : exec ins s = .next t) : t.PcBounded := by
  by_cases hins : Jumps ins
  · exact exec_jump_pcBounded hs hpc hins hexec
  have hstack := (stackDisplayAndIndexWrittenOnlyWhereNamed ins s t hexec).1 (fun h => hins (.inl h))
    fun nnn h => hins (.inr ⟨nnn, .inr (.inl h)⟩)
  refine ⟨?_, fun j => by rw [hstack.2]; exact hs.2 j⟩
  rcases exec_effect ins s with ⟨o, u, hu, heffect⟩ | ⟨c, addr, hu⟩ <;> cases hu.symm.trans hexec
  · have hupc : u.pc.toNat ≤ 0xFFE := heffect.pc ▸ hpc
    exact (State.applyOutcome_pc_le hupc fun w ho => hins (heffect.jumps w ho)).trans (by decide)
  · exact hs.1

/-- Settles O60: an instruction executes only from a PC of at most 0xFFE, where the fetch succeeded; so the return
addresses stay in memory, and PC exceeds it by one jump or skip at most. -/
theorem pcStaysBounded : Obligations.PcStaysBounded := by
  intro s t m hs hafter
  cases m with
  | step =>
    cases stepTo_of_step hafter with
    | still _ => exact hs
    | fetchFault _ _ _ => exact s.halt_pcBounded hs _ _ _
    | illegalWord _ _ _ => exact s.halt_pcBounded hs _ _ _
    | instr _ hfetch _ hexec =>
      simpa [State.PcBounded] using exec_pcBounded hs (State.pc_le_of_fetch_eq_ok hfetch) hexec
  | load bytes =>
    cases hafter
    rcases s.load_cases bytes with ⟨image, _, h | h⟩ | h <;> rw [h]
    · rw [State.restart_eq]
      exact State.reset_pcBounded
    · rw [State.restart_eq]
      exact State.reset_pcBounded
    · exact hs
  | keySet _ _ | dirtyClear =>
    cases hafter
    exact hs

/-- Settles O57: both states are the reset state but for the parameters and RUN, whose memory lists no byte. -/
theorem invariantsHoldAtTheStart : Obligations.InvariantsHoldAtTheStart := by
  intro cfg s hs
  simp only [List.mem_cons, List.not_mem_nil, or_false] at hs
  rcases hs with rfl | rfl
  · exact ⟨Memory.nil_wf, ⟨fun _ => rfl, nofun⟩, State.reset_pcBounded⟩
  · exact ⟨Memory.nil_wf, State.faultConsistent_of_idle rfl, State.reset_pcBounded⟩

/-! ## A fatal step is precise -/

/-- Settles O56: of the ways a step can go from Running, the fetch fault and the unknown word halt the core, and an
instruction does if it raises, for a cause of R220's table; the word it was fetched from is its own. -/
theorem fatalStepsArePrecise : Obligations.FatalStepsArePrecise := by
  intro s t hrun hstep hhalted
  cases stepTo_of_step hstep with
  | still hnot => exact absurd hrun hnot
  | fetchFault _ _ hpast => exact ⟨_, rfl, rfl, .inl ⟨hpast, rfl, rfl, rfl⟩⟩
  | @illegalWord op _ hfetch hdecode => exact ⟨_, rfl, rfl, .inr ⟨op, hfetch, rfl, .inl ⟨hdecode, rfl, rfl⟩⟩⟩
  | @instr op ins u _ hfetch hdecode hexec =>
    rcases exec_cases ins s with ⟨u', hu, hkept, -⟩ | ⟨c, addr, hu, hcause⟩ <;> cases hu.symm.trans hexec
    · rw [State.endStep_run, hkept, hrun] at hhalted
      cases hhalted
    · have hword : some (encode ins) = some op := congrArg some (encode_of_decodeWord hdecode)
      rw [State.endStep_of_halted rfl]
      exact ⟨_, rfl, rfl, .inr ⟨op, hfetch, hword, .inr ⟨ins, hdecode, hcause⟩⟩⟩

end Sys2Proof.Machine
end

section
/-! PROOFS. Jumps by an offset, returns, and skips on registers and keys (41_control_flow.md, 45_keys_timers.md). -/

namespace Sys2Proof.Machine

open Sys2Proof.Claims

theorem encodedAs_jpV0 (nnn : Addr) : EncodedAs (.jpV0 nnn) (0xB000 + nnn.toNat) :=
  .of_encode (formatA_toNat 0xB#4 nnn) (decodeWord_encode _)

theorem exec_jpV0 (nnn : Addr) (s : State) :
    exec (.jpV0 nnn) s = .next (s.applyOutcome (.goto ((s.reg 0).setWidth 16 + nnn.setWidth 16))) := rfl

/-- Settles O22: the jump is its PC outcome alone, and a fetch that reaches past memory fails at the first byte there.
-/
theorem offsetJumpAddsV0 : Obligations.OffsetJumpAddsV0 := by
  refine fun nnn => ⟨encodedAs_jpV0 nnn, fun s => ⟨_, exec_jpV0 nnn s, toNat_offsetTarget (s.reg 0) nnn,
    (Unchanged.refl _ s).applyOutcome _, fun hpast => ?_⟩⟩
  rw [State.fetch_of_past (Nat.succ_le_succ hpast)]
  congr 1
  split <;> omega

/-- Everything a pop that finds an entry does: SP, and no entry (R30). -/
theorem State.pop_of_pos {s : State} (h : 0 < s.sp.val) :
    ∃ u, s.pop = some (s.stack[s.sp.val - 1]'(by omega), u) ∧ u.sp.val = s.sp.val - 1 ∧ u.stack = s.stack ∧
      Unchanged { stack := true } s u := by
  rcases s.pop_cases with ⟨_, hpop⟩ | ⟨hempty, -⟩
  · exact ⟨_, hpop, rfl, rfl, (Unchanged.refl _ s).setStack rfl s.stack _⟩
  · omega

theorem State.pop_of_empty {s : State} (h : s.sp.val = 0) : s.pop = none := by
  rcases s.pop_cases with ⟨hpos, -⟩ | ⟨-, hpop⟩
  · omega
  · exact hpop

/-- Settles O24: the pop answers by SP, and the jump after it adds only PC. -/
theorem returnGoesPastTheCall : Obligations.ReturnGoesPastTheCall := by
  refine ⟨.of_encode rfl rfl, fun s => ⟨fun hpos => ?_, fun hempty => ?_⟩⟩
  · obtain ⟨u, hpop, hsp, hstack, hframe⟩ := State.pop_of_pos hpos
    exact ⟨_, exec_ret_of_pop_eq_some hpop, hsp, hstack, rfl, hframe.applyOutcome _⟩
  · exact exec_ret_of_pop_eq_none (State.pop_of_empty hempty)

/-- Settles O25: RET pops the entry CALL pushed, which is the call's own address. -/
theorem callThenReturnComesBack : Obligations.CallThenReturnComesBack := by
  intro s nnn hfree
  obtain ⟨v, hpush, htop, -, hvsp, -⟩ := State.push_of_lt s.pc hfree
  refine ⟨_, exec_call_of_push_eq_some hpush, fun u husp hustack => ?_⟩
  have hsp : u.sp.val = s.sp.val + 1 := by rw [husp]; exact hvsp
  obtain ⟨w, hpop, hwsp, -, -⟩ := State.pop_of_pos (s := u) (by omega)
  refine ⟨_, exec_ret_of_pop_eq_some hpop, ?_, Fin.ext (by show w.sp.val = _; omega)⟩
  have hentry : u.stack[u.sp.val - 1]'(by omega) = s.pc := by
    simp only [hustack, hsp, Nat.add_sub_cancel]
    exact htop
  rw [State.applyOutcome_goto_pc, hentry]

/-! ## Skips on two registers -/

theorem encodedAs_seR (x y : RegIdx) : EncodedAs (.seR x y) (0x5000 + 0x100 * x.val + 0x10 * y.val) :=
  .of_encode (formatXYN_toNat 0x5#4 x y 0x0#4) (decodeWord_encode _)

theorem encodedAs_sneR (x y : RegIdx) : EncodedAs (.sneR x y) (0x9000 + 0x100 * x.val + 0x10 * y.val) :=
  .of_encode (formatXYN_toNat 0x9#4 x y 0x0#4) (decodeWord_encode _)

theorem skipsWhen_seR (x y : RegIdx) : SkipsWhen (.seR x y) (fun s => s.reg x = s.reg y) :=
  skipsWhen_of_exec_eq_skipIf (fun _ => rfl) fun _ => beq_iff_eq

theorem skipsWhen_sneR (x y : RegIdx) : SkipsWhen (.sneR x y) (fun s => s.reg x ≠ s.reg y) :=
  skipsWhen_of_exec_eq_skipIf (fun _ => rfl) fun _ => bne_iff_ne

/-- Classes 0x5 and 0x9 match their whole pattern (R84): a low digit that is not 0 makes the word no instruction. -/
theorem decodeWord_of_lowDigit {c : BitVec 4} (hc : c = 0x5#4 ∨ c = 0x9#4) (x y : RegIdx) {n : Nibble} (hn : n ≠ 0) :
    decodeWord (BitVec.ofNat 16 (0x1000 * c.toNat + 0x100 * x.val + 0x10 * y.val + n.toNat)) = .unrecognized := by
  rw [← formatXYN_toNat, BitVec.ofNat_toNat, BitVec.setWidth_eq]
  rcases hc with rfl | rfl <;> simp only [decodeWord, opClass_formatXYN, fieldN_formatXYN, hn, if_false]

/-- Settles O27: each word's encoding, the skip on its test, and the words with a low digit. -/
theorem skipsOnARegister : Obligations.SkipsOnARegister := fun x y =>
  ⟨encodedAs_seR x y, skipsWhen_seR x y, encodedAs_sneR x y, skipsWhen_sneR x y, fun _ hn =>
    ⟨decodeWord_of_lowDigit (.inl rfl) x y hn, decodeWord_of_lowDigit (.inr rfl) x y hn⟩⟩

/-! ## Skips on a key, and the wait for one -/

/-- Format XS: the selector is the word's low byte. -/
theorem encodedAs_of_selector {ins : Instr} {c : BitVec 4} {x : RegIdx} {sel : Byte}
    (hencode : encode ins = formatXB c x sel) : EncodedAs ins (0x1000 * c.toNat + sel.toNat + 0x100 * x.val) := by
  refine .of_encode ?_ (decodeWord_encode ins)
  rw [hencode, formatXB_toNat]
  omega

/-- A key number up to 15, or under the policy `mask`, names its key modulo 16. -/
theorem keyNumber_eq_some {p : KeyIndexPolicy} {b : Byte} {k : RegIdx} (h : b.toNat ≤ 15 ∨ p = .mask)
    (hk : k.val = b.toNat % 16) : keyNumber p b = some k := by
  by_cases hsmall : b.toNat < 16
  · rw [keyNumber_small hsmall, Option.some.injEq, Fin.ext_iff, hk, Nat.mod_eq_of_lt hsmall]
  · rw [h.resolve_left (by omega), (keyNumber_large (by omega)).2, Option.some.injEq, Fin.ext_iff, hk, Fin.val_ofNat]

/-- EX9E and EXA1 on the key `k` that V[x] names. -/
theorem skipIfKey_of_keyNumber_eq_some {ins : Instr} {x k : RegIdx} {down : Bool} {s : State}
    (hexec : exec ins s = skipIfKey ins x down s) (hk : keyNumber s.cfg.keyIndexPolicy (s.reg x) = some k) :
    ∃ t, exec ins s = .next t ∧ t.pc = (if s.key[k] = down then s.pc + 4 else s.pc + 2) ∧ Unchanged {} s t := by
  rcases skipIfKey_cases ins x down s with ⟨k', hk', hskip⟩ | ⟨hnone, -⟩
  · cases hk.symm.trans hk'
    refine ⟨_, (hexec.trans hskip).trans (skipIf_eq _ s), ?_, (Unchanged.refl _ s).applyOutcome _⟩
    simp only [beq_iff_eq]
    split <;> rfl
  · cases hk.symm.trans hnone

theorem skipIfKey_raises {ins : Instr} {x : RegIdx} {down : Bool} {s : State}
    (hexec : exec ins s = skipIfKey ins x down s) (hlarge : 15 < (s.reg x).toNat) (hp : s.cfg.keyIndexPolicy = .fault) :
    Raises ins s .outOfBoundsAccess (some (s.reg x).toNat) := by
  have hnone : keyNumber s.cfg.keyIndexPolicy (s.reg x) = none := by rw [hp, (keyNumber_large hlarge).1]
  rcases skipIfKey_cases ins x down s with ⟨k, hk, -⟩ | ⟨-, hraise⟩
  · cases hk.symm.trans hnone
  · exact hexec.trans hraise

/-- Settles O46: the key number decides between the skip on that key and the fault. -/
theorem skipsOnAKey : Obligations.SkipsOnAKey := by
  refine fun x => ⟨encodedAs_of_selector (c := 0xE#4) (sel := 0x9E#8) rfl,
    encodedAs_of_selector (c := 0xE#4) (sel := 0xA1#8) rfl, fun s => ⟨fun hnames k hk => ?_, fun hlarge hp =>
      ⟨skipIfKey_raises rfl hlarge hp, skipIfKey_raises rfl hlarge hp⟩⟩⟩
  have hkey := keyNumber_eq_some hnames hk
  refine ⟨skipIfKey_of_keyNumber_eq_some rfl hkey, ?_⟩
  obtain ⟨t, hexec, hpc, hframe⟩ := skipIfKey_of_keyNumber_eq_some (ins := .sknp x) (down := false) rfl hkey
  refine ⟨t, hexec, hpc.trans ?_, hframe⟩
  by_cases hdown : s.key[k] = true <;> simp [hdown]

/-- Settles O47: the wait holds, or its one write is the lowest key that is down. -/
theorem keyWait : Obligations.KeyWait := by
  refine fun x => ⟨encodedAs_of_classF (sel := 0x0A#8) rfl rfl, fun s => ⟨fun hup => ?_, fun k hdown hlowest => ?_⟩⟩
  · exact exec_ldXK_of_lowestKeyDown_eq_none (lowestKeyDown_eq_none.2 hup)
  · refine ⟨_, exec_ldXK_of_lowestKeyDown_eq_some (lowestKeyDown_eq_some.2 ⟨hdown, hlowest⟩), ?_, rfl,
      ((Unchanged.refl _ s).setReg List.mem_cons_self _).applyOutcome _⟩
    rw [State.reg_congr (State.applyOutcome_v _ _), State.reg_setReg, if_pos rfl, BitVec.toNat_ofNat]
    omega

/-! ## The timers' writes, and the tick of the same step -/

theorem exec_ldDtX (x : RegIdx) (s : State) : exec (.ldDtX x) s = complete .next { s with dt := s.reg x } := rfl

theorem exec_ldStX (x : RegIdx) (s : State) : exec (.ldStX x) s = complete .next { s with st := s.reg x } := rfl

/-- Settles O48: each is one write, and the tick after it finds the value written. -/
theorem timersWritten : Obligations.TimersWritten := by
  refine fun x => ⟨encodedAs_of_classF (sel := 0x15#8) rfl rfl, encodedAs_of_classF (sel := 0x18#8) rfl rfl, fun s =>
    ⟨⟨_, exec_ldDtX x s, rfl, rfl, ?_, fun hrun => ?_⟩, _, exec_ldStX x s, rfl, rfl, ?_, fun hrun => ?_⟩⟩
  · exact ((Unchanged.refl _ s).setDelay rfl _).applyOutcome .next
  · rw [State.endStep_of_not_halted (by simp [hrun])]
    exact toNat_tickDown (s.reg x)
  · exact ((Unchanged.refl _ s).setSound rfl _).applyOutcome .next
  · rw [State.endStep_of_not_halted (by simp [hrun])]
    have hone : s.reg x = 1 ↔ (s.reg x).toNat = 1 := by rw [BitVec.toNat_eq]; rfl
    refine ⟨toNat_tickDown (s.reg x), ?_⟩
    simp only [State.timerTick_beeps, State.applyOutcome_st, State.applyOutcome_beeps, hone]

end Sys2Proof.Machine
end

section
/-! PROOFS. The ALU (42_alu.md): logic, the flag-first instructions under both settings of ALU_READ_ORDER, and RND. -/

namespace Sys2Proof.Machine

open Sys2Proof.Claims

/-! ## Logic -/

theorem encodedAs_orR (x y : RegIdx) : EncodedAs (.orR x y) (0x8001 + 0x100 * x.val + 0x10 * y.val) :=
  encodedAs_of_class8 (n := 0x1#4) rfl rfl

theorem encodedAs_andR (x y : RegIdx) : EncodedAs (.andR x y) (0x8002 + 0x100 * x.val + 0x10 * y.val) :=
  encodedAs_of_class8 (n := 0x2#4) rfl rfl

theorem encodedAs_xorR (x y : RegIdx) : EncodedAs (.xorR x y) (0x8003 + 0x100 * x.val + 0x10 * y.val) :=
  encodedAs_of_class8 (n := 0x3#4) rfl rfl

/-- 8XY1 to 8XY3 write the result of a bitwise operation, in whatever form it is spelt. -/
theorem writesRegister_of_aluNoFlag {ins : Instr} {f g : Byte → Byte → Byte} {x y : RegIdx}
    (hexec : ∀ s, exec ins s = aluNoFlag f x y s) (hfg : ∀ a b, f a b = g a b) :
    WritesRegister ins x (fun s => g (s.reg x) (s.reg y)) := by
  refine writesRegister_of_exec_eq_setReg fun s => ?_
  rw [hexec, aluNoFlag, hfg]

/-- Settles O29: each writes the operation's result, which is the operation on the values, and no flag. -/
theorem logicOperationsWriteNoFlag : Obligations.LogicOperationsWriteNoFlag := by
  refine fun x y =>
    ⟨encodedAs_orR x y, writesRegister_of_aluNoFlag (g := fun a b => .ofNat 8 (a.toNat ||| b.toNat)) (fun _ => rfl) ?_,
     encodedAs_andR x y, writesRegister_of_aluNoFlag (g := fun a b => .ofNat 8 (a.toNat &&& b.toNat)) (fun _ => rfl) ?_,
     encodedAs_xorR x y, writesRegister_of_aluNoFlag (g := fun a b => .ofNat 8 (a.toNat ^^^ b.toNat)) (fun _ => rfl) ?_⟩
  · exact fun a b => by rw [← BitVec.toNat_or, BitVec.ofNat_toNat, BitVec.setWidth_eq]
  · exact fun a b => by rw [← BitVec.toNat_and, BitVec.ofNat_toNat, BitVec.setWidth_eq]
  · exact fun a b => by rw [← BitVec.toNat_xor, BitVec.ofNat_toNat, BitVec.setWidth_eq]

/-! ## The flag-first form (R143) -/

theorem operandAfterFlag_of_ne {s : State} {x : RegIdx} (hx : x ≠ vF) (flag : Byte) :
    operandAfterFlag s x flag = s.reg x := if_neg fun h => hx h.2

theorem operandAfterFlag_sequential {s : State} (h : s.cfg.aluReadOrder = .sequential) (flag : Byte) :
    operandAfterFlag s vF flag = flag := if_pos ⟨h, rfl⟩

theorem operandAfterFlag_latched {s : State} (h : s.cfg.aluReadOrder = .latched) (x : RegIdx) (flag : Byte) :
    operandAfterFlag s x flag = s.reg x := if_neg fun hs => by simp [h] at hs

/-- The operands the model reads for the result are the ones the statements speak of, under both settings. -/
theorem resultOperands_setFlag (s : State) (x y : RegIdx) (f : Bool) :
    resultOperands s.cfg.aluReadOrder x y s (s.setFlag f) =
      (operandAfterFlag s x (flagByte f), operandAfterFlag s y (flagByte f)) := by
  rcases h : s.cfg.aluReadOrder with _ | _
  · simp only [resultOperands, State.reg_setFlag, operandAfterFlag, h, true_and]
  · rw [operandAfterFlag_latched h, operandAfterFlag_latched h]
    rfl

/-- What a flag-first instruction leaves: V[x] the result, and VF the flag unless the result went there. -/
theorem aluFlagFirst_spec {ins : Instr} {flag : Byte → Byte → Bool} {result : Byte → Byte → Byte} {x y : RegIdx}
    {s : State} {f : Byte} (hexec : exec ins s = aluFlagFirst flag result x y s)
    (hf : flagByte (flag (s.reg x) (s.reg y)) = f) :
    ∃ t, exec ins s = .next t ∧ t.reg x = result (operandAfterFlag s x f) (operandAfterFlag s y f) ∧
      (x ≠ vF → t.reg vF = f) ∧ t.pc = s.pc + 2 ∧ Unchanged { regs := [x, vF] } s t := by
  subst hf
  unfold aluFlagFirst at hexec
  simp only [resultOperands_setFlag] at hexec
  refine ⟨_, hexec, ?_, fun hx => ?_, rfl, ?_⟩
  · rw [State.reg_congr (State.applyOutcome_v _ _), State.reg_setReg, if_pos rfl]
  · rw [State.reg_congr (State.applyOutcome_v _ _), State.reg_setReg, if_neg hx.symm, State.reg_setFlag, if_pos rfl]
  · exact (((Unchanged.refl _ s).setFlag (by simp) _).setReg (by simp) _).applyOutcome _

theorem flagByte_notBorrow (a b : Byte) : flagByte (notBorrow a b) = if b.toNat > a.toNat then 0 else 1 := by
  by_cases h : b.toNat > a.toNat <;> simp [flagByte, notBorrow, h]

theorem flagByte_lowBit (a : Byte) : flagByte (lowBit a) = BitVec.ofNat 8 (a.toNat % 2) := by
  rw [flagByte, lowBit, BitVec.getLsbD, Nat.testBit_zero]
  rcases Nat.mod_two_eq_zero_or_one a.toNat with h | h <;> simp [h]

/-- The top bit of a byte is set from 128 on. -/
theorem highBit_eq (a : Byte) : highBit a = decide (a.toNat / 128 = 1) := by
  have hlt : a.toNat / 128 < 2 := Nat.div_lt_of_lt_mul a.isLt
  rw [highBit, BitVec.getLsbD, Nat.testBit_eq_decide_div_mod_eq]
  congr 2
  exact Nat.mod_eq_of_lt hlt

theorem flagByte_highBit (a : Byte) : flagByte (highBit a) = BitVec.ofNat 8 (a.toNat / 128) := by
  have hlt : a.toNat / 128 < 2 := Nat.div_lt_of_lt_mul a.isLt
  rw [flagByte, highBit_eq]
  rcases Nat.lt_succ_iff_lt_or_eq.1 hlt with h | h
  · simp [Nat.lt_one_iff.1 h]
  · simp [h]

theorem byte_toNat_sub (a b : Byte) : (a - b).toNat = (256 + a.toNat - b.toNat) % 256 := by
  have hb := b.isLt
  rw [BitVec.toNat_sub]
  omega

theorem exec_sub (x y : RegIdx) (s : State) :
    exec (.sub x y) s = aluFlagFirst notBorrow (fun a b => a - b) x y s := rfl

theorem exec_subn (x y : RegIdx) (s : State) :
    exec (.subn x y) s = aluFlagFirst (fun a b => notBorrow b a) (fun a b => b - a) x y s := rfl

theorem exec_shr (x y : RegIdx) (s : State) :
    exec (.shr x y) s = aluFlagFirst (fun a _ => lowBit a) (fun a _ => a >>> 1) x y s := rfl

theorem exec_shl (x y : RegIdx) (s : State) :
    exec (.shl x y) s = aluFlagFirst (fun a _ => highBit a) (fun a _ => a <<< 1) x y s := rfl

/-- Settles O31: both subtractions are flag-first, and a byte difference is the difference modulo 256. -/
theorem subtractWithNotBorrow : Obligations.SubtractWithNotBorrow := by
  refine fun x y => ⟨encodedAs_of_class8 (n := 0x5#4) rfl rfl, encodedAs_of_class8 (n := 0x7#4) rfl rfl, fun s =>
    ⟨?_, ?_⟩⟩
  · obtain ⟨t, hexec, hx, hrest⟩ := aluFlagFirst_spec (exec_sub x y s) (flagByte_notBorrow _ _)
    exact ⟨t, hexec, (congrArg BitVec.toNat hx).trans (byte_toNat_sub _ _), hrest⟩
  · obtain ⟨t, hexec, hx, hrest⟩ := aluFlagFirst_spec (exec_subn x y s) (flagByte_notBorrow _ _)
    exact ⟨t, hexec, (congrArg BitVec.toNat hx).trans (byte_toNat_sub _ _), hrest⟩

/-- Settles O32: both shifts are flag-first with V[y] ignored, and move the value by one place. -/
theorem shiftsByOne : Obligations.ShiftsByOne := by
  refine fun x y => ⟨encodedAs_of_class8 (n := 0x6#4) rfl rfl, encodedAs_of_class8 (n := 0xE#4) rfl rfl, fun s =>
    ⟨?_, ?_⟩⟩
  · obtain ⟨t, hexec, hx, hrest⟩ := aluFlagFirst_spec (exec_shr x y s) (flagByte_lowBit _)
    refine ⟨t, hexec, ?_, hrest⟩
    rw [hx, BitVec.toNat_ushiftRight, Nat.shiftRight_eq_div_pow, Nat.pow_one]
  · obtain ⟨t, hexec, hx, hrest⟩ := aluFlagFirst_spec (exec_shl x y s) (flagByte_highBit _)
    refine ⟨t, hexec, ?_, hrest⟩
    rw [hx, BitVec.toNat_shiftLeft, Nat.shiftLeft_eq, Nat.pow_one]

/-! ## VF as an operand: R143's table -/

theorem leavesVF_of_aluFlagFirst {ins : Instr} {flag : Byte → Byte → Bool} {result : Byte → Byte → Byte} {y : RegIdx}
    {s : State} {f : Byte} (hexec : exec ins s = aluFlagFirst flag result vF y s)
    (hf : flagByte (flag (s.reg vF) (s.reg y)) = f) :
    LeavesVF ins s (result (operandAfterFlag s vF f) (operandAfterFlag s y f)) := by
  obtain ⟨t, ht, hresult, -⟩ := aluFlagFirst_spec hexec hf
  exact ⟨t, ht, hresult⟩

theorem leavesBoth_of_aluFlagFirst {ins : Instr} {flag : Byte → Byte → Bool} {result : Byte → Byte → Byte}
    {x y : RegIdx} {s : State} {f : Byte} (hx : x ≠ vF) (hexec : exec ins s = aluFlagFirst flag result x y s)
    (hf : flagByte (flag (s.reg x) (s.reg y)) = f) :
    LeavesBoth ins s x (result (operandAfterFlag s x f) (operandAfterFlag s y f)) f := by
  obtain ⟨t, ht, hresult, hflag, -⟩ := aluFlagFirst_spec hexec hf
  exact ⟨t, ht, hresult, hflag hx⟩

theorem leavesVF_addR (s : State) (x : RegIdx) :
    LeavesVF (.addR vF x) s (if (s.reg vF).toNat + (s.reg x).toNat > 255 then 1 else 0) := by
  obtain ⟨-, hspec⟩ := addWithCarryOut vF x
  obtain ⟨t, hexec, -, hflag, -⟩ := hspec s
  exact ⟨t, hexec, hflag⟩

theorem leavesBoth_addR (s : State) {x : RegIdx} (hx : x ≠ vF) :
    LeavesBoth (.addR x vF) s x (s.reg x + s.reg vF) (if (s.reg vF).toNat + (s.reg x).toNat > 255 then 1 else 0) := by
  obtain ⟨-, hspec⟩ := addWithCarryOut x vF
  obtain ⟨t, hexec, hsum, hflag, -⟩ := hspec s
  refine ⟨t, hexec, BitVec.eq_of_toNat_eq ?_, hflag.trans (by rw [Nat.add_comm])⟩
  rw [hsum hx, BitVec.toNat_add]

/-- The flag shifted right is 0, and shifted left it is the flag in bit 1. -/
theorem flagByte_shift (f : Bool) : flagByte f >>> 1 = 0 ∧ flagByte f <<< 1 = if f then 2 else 0 := by
  cases f <;> decide

/-- The column `sequential` of R143's table: an operand VF is the flag just written. -/
theorem flagRegisterAsOperand_sequential {s : State} {x : RegIdx} (hx : x ≠ vF)
    (h : s.cfg.aluReadOrder = .sequential) :
    let v := s.reg vF
    let r := s.reg x
    let rGtV : Byte := if r.toNat > v.toNat then 0 else 1
    let vGtR : Byte := if v.toNat > r.toNat then 0 else 1
    LeavesVF (.sub vF x) s (rGtV - r) ∧ LeavesBoth (.sub x vF) s x (r - vGtR) vGtR ∧ LeavesVF (.shr vF x) s 0 ∧
    LeavesVF (.subn vF x) s (r - vGtR) ∧ LeavesBoth (.subn x vF) s x (rGtV - r) rGtV ∧
    LeavesVF (.shl vF x) s (if v.toNat / 128 = 1 then 2 else 0) := by
  have hsub := leavesVF_of_aluFlagFirst (exec_sub vF x s) (flagByte_notBorrow _ _)
  have hsub' := leavesBoth_of_aluFlagFirst hx (exec_sub x vF s) (flagByte_notBorrow _ _)
  have hshr := leavesVF_of_aluFlagFirst (exec_shr vF x s) rfl
  have hsubn := leavesVF_of_aluFlagFirst (exec_subn vF x s) (flagByte_notBorrow _ _)
  have hsubn' := leavesBoth_of_aluFlagFirst hx (exec_subn x vF s) (flagByte_notBorrow _ _)
  have hshl := leavesVF_of_aluFlagFirst (exec_shl vF x s) rfl
  simp only [operandAfterFlag_sequential h, operandAfterFlag_of_ne hx] at hsub hsub' hshr hsubn hsubn' hshl
  rw [(flagByte_shift _).1] at hshr
  rw [(flagByte_shift _).2, highBit_eq] at hshl
  simp only [decide_eq_true_eq] at hshl
  exact ⟨hsub, hsub', hshr, hsubn, hsubn', hshl⟩

/-- The column `latched` of R143's table: every operand is the old value. -/
theorem flagRegisterAsOperand_latched {s : State} {x : RegIdx} (hx : x ≠ vF) (h : s.cfg.aluReadOrder = .latched) :
    let v := s.reg vF
    let r := s.reg x
    let rGtV : Byte := if r.toNat > v.toNat then 0 else 1
    let vGtR : Byte := if v.toNat > r.toNat then 0 else 1
    LeavesVF (.sub vF x) s (v - r) ∧ LeavesBoth (.sub x vF) s x (r - v) vGtR ∧ LeavesVF (.shr vF x) s (v >>> 1) ∧
    LeavesVF (.subn vF x) s (r - v) ∧ LeavesBoth (.subn x vF) s x (v - r) rGtV ∧ LeavesVF (.shl vF x) s (v <<< 1) := by
  have hsub := leavesVF_of_aluFlagFirst (exec_sub vF x s) rfl
  have hsub' := leavesBoth_of_aluFlagFirst hx (exec_sub x vF s) (flagByte_notBorrow _ _)
  have hshr := leavesVF_of_aluFlagFirst (exec_shr vF x s) rfl
  have hsubn := leavesVF_of_aluFlagFirst (exec_subn vF x s) rfl
  have hsubn' := leavesBoth_of_aluFlagFirst hx (exec_subn x vF s) (flagByte_notBorrow _ _)
  have hshl := leavesVF_of_aluFlagFirst (exec_shl vF x s) rfl
  simp only [operandAfterFlag_latched h] at hsub hsub' hshr hsubn hsubn' hshl
  exact ⟨hsub, hsub', hshr, hsubn, hsubn', hshl⟩

/-- Settles O33: the additions, the two instructions on VF alone, whose operands are equal whatever they are, and the
two columns. -/
theorem flagRegisterAsOperand : Obligations.FlagRegisterAsOperand := by
  intro s x hx
  have hsub := leavesVF_of_aluFlagFirst (exec_sub vF vF s) rfl
  have hsubn := leavesVF_of_aluFlagFirst (exec_subn vF vF s) rfl
  simp only [BitVec.sub_self] at hsub hsubn
  exact ⟨leavesVF_addR s x, leavesBoth_addR s hx, hsub, hsubn, flagRegisterAsOperand_sequential hx,
    flagRegisterAsOperand_latched hx⟩

/-! ## RND -/

theorem exec_rnd (x : RegIdx) (nn : Byte) (s : State) : exec (.rnd x nn) s =
    complete .next { s.setReg x (Config.randDraw s.draws &&& nn) with draws := s.draws + 1 } := rfl

/-- Settles O34: one register write with the draw at the counter, and one draw more; the mask 0 leaves no bit of it. -/
theorem randomByteUnderAMask : Obligations.RandomByteUnderAMask := by
  refine fun x nn => ⟨.of_encode (formatXB_toNat 0xC#4 x nn) (decodeWord_encode _), fun s => ?_⟩
  have hx : (s.setReg x (Config.randDraw s.draws &&& nn)).reg x = Config.randDraw s.draws &&& nn := by
    rw [State.reg_setReg, if_pos rfl]
  refine ⟨_, exec_rnd x nn s, hx, rfl, fun hnn => hx.trans ?_, rfl,
    (((Unchanged.refl _ s).setReg List.mem_cons_self _).setDraws rfl _).applyOutcome _⟩
  rw [hnn]
  exact BitVec.and_zero

end Sys2Proof.Machine
end

section
/-! PROOFS. The index register and memory transfers (43_index_memory.md), with the accesses past memory (20_memory.md
section 3) and the fetch of what was stored (section 4). -/

namespace Sys2Proof.Machine

open Sys2Proof.Claims

/-! ## I alone -/

theorem toNat_byte_setWidth (b : Byte) : (b.setWidth 16).toNat = b.toNat := BitVec.toNat_setWidth_of_le (by decide)

theorem flagByte_indexOverflow (i : Word) : flagByte (indexOverflow i) = if i.toNat > 0xFFF then 1 else 0 := by
  simp only [flagByte, indexOverflow, decide_eq_true_eq]

theorem exec_addI (x : RegIdx) (s : State) : exec (.addI x) s =
    complete .next (({ s with i := s.i + (s.reg x).setWidth 16 } : State).setFlag
      (indexOverflow (s.i + (s.reg x).setWidth 16))) := rfl

/-- Settles O35: the sum is written to I, and the flag, the last write, is taken from it. -/
theorem addToIndexWithOverflowFlag : Obligations.AddToIndexWithOverflowFlag := by
  refine fun x => ⟨encodedAs_of_classF (sel := 0x1E#8) rfl rfl, fun s => ⟨_, exec_addI x s, ?_, ?_, rfl, ?_⟩⟩
  · rw [State.applyOutcome_i, State.setFlag_i, BitVec.toNat_add, toNat_byte_setWidth]
  · rw [State.reg_congr (State.applyOutcome_v _ _), State.reg_setFlag, if_pos rfl, flagByte_indexOverflow]
    rfl
  · exact (((Unchanged.refl _ s).setIndex rfl _).setFlag List.mem_cons_self _).applyOutcome _

theorem exec_ldF (x : RegIdx) (s : State) : exec (.ldF x) s =
    complete .next { s with i := s.cfg.fontBase + 5 * (s.reg x).setWidth 16 } := rfl

/-- Settles O36: five times a byte, and at the default base the sum with it, are far below 2^16. -/
theorem fontPointerIsBasePlusFiveTimes : Obligations.FontPointerIsBasePlusFiveTimes := by
  refine fun x => ⟨encodedAs_of_classF (sel := 0x29#8) rfl rfl, fun s => ?_⟩
  have hi : (s.cfg.fontBase + 5 * (s.reg x).setWidth 16).toNat =
      (s.cfg.fontBase.toNat + 5 * (s.reg x).toNat) % 65536 := by
    rw [BitVec.toNat_add, BitVec.toNat_mul, toNat_byte_setWidth, Nat.add_mod_mod]
    rfl
  refine ⟨_, exec_ldF x s, hi, fun hbase => hi.trans ?_, rfl, ((Unchanged.refl _ s).setIndex rfl _).applyOutcome _⟩
  have hx := (s.reg x).isLt
  have hdefault : s.cfg.fontBase.toNat = 0x050 := by rw [hbase]; rfl
  omega

/-! ## Accesses past memory -/

/-- An access that reaches past memory raises at the lowest address that does not exist (R59, R225). -/
theorem withAddresses_of_past {base n : Nat} (hn : n ≠ 0) (hpast : 4096 < base + n) (ins : Instr) (s : State)
    (body : Outcome) :
    withAddresses ins base n s body = raise ins .outOfBoundsAccess (some (max base 4096)) s := by
  have hfirst : firstOutOfBounds base n = some (max base 4096) :=
    firstOutOfBounds_eq_some.2 ⟨by omega, by omega, by omega, fun b _ _ => by omega⟩
  simp only [withAddresses, hfirst]

/-- Settles O41: each of the three checks its addresses first, and raising is all it does. -/
theorem addressPastMemoryIsFatal : Obligations.AddressPastMemoryIsFatal := by
  refine fun s => ⟨fun x y n hn hpast => ?_, fun x hpast => ⟨?_, ?_⟩⟩
  · exact withAddresses_of_past (fun h => hn (BitVec.eq_of_toNat_eq h)) hpast _ s _
  · exact withAddresses_of_past (Nat.succ_ne_zero _) (Nat.lt_succ_of_le hpast) _ s _
  · exact withAddresses_of_past (Nat.succ_ne_zero _) (Nat.lt_succ_of_le hpast) _ s _

/-! ## The stores -/

theorem exec_ldBX_of_inBounds {x : RegIdx} {s : State} (h : s.i.toNat + 2 < 4096) :
    exec (.ldBX x) s = complete .next (s.pokes s.base (bcdDigits (s.reg x))) :=
  withAddresses_inBounds (.inr h) (.ldBX x) s _

/-- Settles O37: the three digits are stored in order, or the check finds an address past memory. -/
theorem decimalDigitsStored : Obligations.DecimalDigitsStored := by
  refine fun x => ⟨encodedAs_of_classF (sel := 0x33#8) rfl rfl, fun s hs => ⟨fun hfits => ?_, fun hpast => ?_⟩⟩
  · have hread := State.peek_pokes_same (bcdDigits (s.reg x)) s hs s.base hfits
    have hbyte := (s.reg x).isLt
    have hpeek : ∀ k (h : k < (bcdDigits (s.reg x)).length),
        ((s.pokes s.base (bcdDigits (s.reg x))).applyOutcome .next).peek (s.base + k) = (bcdDigits (s.reg x))[k] :=
      fun k h => (State.peek_congr (by simp) (by simp) _).trans (hread k h)
    refine ⟨_, exec_ldBX_of_inBounds hfits, ?_, ?_, ?_, ?_, (unchanged_ldBX s x).applyOutcome _⟩
    · refine (congrArg BitVec.toNat (hpeek 0 (Nat.succ_pos 2))).trans ?_
      exact (BitVec.toNat_ofNat ..).trans (Nat.mod_eq_of_lt (by omega))
    · refine (congrArg BitVec.toNat (hpeek 1 (Nat.lt_add_left 1 Nat.one_lt_two))).trans ?_
      exact (BitVec.toNat_ofNat ..).trans (Nat.mod_eq_of_lt (by omega))
    · refine (congrArg BitVec.toNat (hpeek 2 (Nat.lt_succ_self 2))).trans ?_
      exact (BitVec.toNat_ofNat ..).trans (Nat.mod_eq_of_lt (by omega))
    · rw [State.applyOutcome_next_pc, State.pokes_pc]
  · exact withAddresses_of_past (Nat.succ_ne_zero 2) (Nat.lt_succ_of_le hpast) _ s _

theorem exec_ldMiX_of_inBounds {x : RegIdx} {s : State} (h : s.i.toNat + x.val < 4096) :
    exec (.ldMiX x) s = complete .next ((s.pokes s.base (s.firstRegs (blockSize x))).advanceI x) :=
  withAddresses_inBounds (.inr h) (.ldMiX x) s _

theorem exec_ldXMi_of_inBounds {x : RegIdx} {s : State} (h : s.i.toNat + x.val < 4096) :
    exec (.ldXMi x) s = complete .next ((s.setRegs 0 (s.peeks s.base (blockSize x))).advanceI x) :=
  withAddresses_inBounds (.inr h) (.ldXMi x) s _

/-- Where FX55 and FX65 leave I. -/
theorem toNat_advance (i : Word) (x : RegIdx) :
    (i + BitVec.ofNat 16 (blockSize x)).toNat = (i.toNat + x.val + 1) % 65536 := by
  rw [BitVec.toNat_add, BitVec.toNat_ofNat, Nat.add_mod_mod, blockSize, Nat.add_assoc]

/-- The block FX55 stored holds V0 to Vx. -/
theorem State.peek_pokes_firstRegs {s : State} (hs : s.MemoryCanonical) {x k : RegIdx} (hk : k ≤ x)
    (hfits : s.i.toNat + x.val < 4096) :
    (s.pokes s.base (s.firstRegs (blockSize x))).peek (s.base + k.val) = s.reg k := by
  have hlen := s.firstRegs_length x
  have hlt : k.val < (s.firstRegs (blockSize x)).length := by rw [hlen]; exact Nat.lt_succ_of_le hk
  rw [State.peek_pokes_same _ s hs s.base (by rw [hlen]; exact hfits) k.val hlt, State.firstRegs_getElem]

/-- Settles O38: the block's bytes are the registers in order, and I moves past it. -/
theorem registersStored : Obligations.RegistersStored := by
  refine fun x => ⟨encodedAs_of_classF (sel := 0x55#8) rfl rfl, fun s hs hfits =>
    ⟨_, exec_ldMiX_of_inBounds hfits, fun k hk => ?_, ?_, ?_, (unchanged_ldMiX s x).applyOutcome _⟩⟩
  · exact (State.peek_congr (by simp) (by simp) _).trans (State.peek_pokes_firstRegs hs hk hfits)
  · rw [State.applyOutcome_i, State.advanceI_i, State.pokes_i, toNat_advance]
  · rw [State.applyOutcome_next_pc, State.advanceI_pc, State.pokes_pc]

/-- The registers FX65 loaded hold the block. -/
theorem State.reg_setRegs_peeks (s : State) {x k : RegIdx} (hk : k ≤ x) :
    (s.setRegs 0 (s.peeks s.base (blockSize x))).reg k = s.peek (s.base + k.val) := by
  have hx := x.isLt
  have hlt : k.val < (s.peeks s.base (blockSize x)).length := (s.peeks_length ..).symm ▸ Nat.lt_succ_of_le hk
  rw [State.reg_setRegs _ s 0 (by rw [State.peeks_length, blockSize]; omega), if_pos (Nat.zero_le _), Nat.sub_zero,
    List.getD_eq_getElem _ _ hlt, State.peeks_getElem]

/-- Settles O39: the registers are the block's bytes in order, and I moves past it. -/
theorem registersLoaded : Obligations.RegistersLoaded := by
  refine fun x => ⟨encodedAs_of_classF (sel := 0x65#8) rfl rfl, fun s hfits =>
    ⟨_, exec_ldXMi_of_inBounds hfits, fun k hk => ?_, ?_, ?_,
      (unchanged_ldXMi s x (State.peeks_length ..)).applyOutcome _⟩⟩
  · exact (State.reg_congr (by simp) k).trans (State.reg_setRegs_peeks s hk)
  · rw [State.applyOutcome_i, State.advanceI_i, State.setRegs_i, toNat_advance]
  · rw [State.applyOutcome_next_pc, State.advanceI_pc, State.setRegs_pc]

/-- Settles O40: what O39 loads are the bytes that O38 stored. -/
theorem storeThenLoadRestoresRegisters : Obligations.StoreThenLoadRestoresRegisters := by
  intro s x hs hfits
  obtain ⟨-, hstore⟩ := registersStored x
  obtain ⟨t, hexec, hstored, hti, -⟩ := hstore s hs hfits
  refine ⟨t, hexec, fun u hui hupeek => ?_⟩
  obtain ⟨-, hload⟩ := registersLoaded x
  obtain ⟨w, hexec', hloaded, hwi, -⟩ := hload u (hui ▸ hfits)
  have hbase : u.base = s.base := congrArg BitVec.toNat hui
  refine ⟨w, hexec', fun k hk => ?_, BitVec.eq_of_toNat_eq ?_⟩
  · rw [hloaded k hk, hbase, hupeek, hstored k hk]
  · rw [hwi, hui, hti]

/-- Settles O42: the step's end leaves memory alone, so the fetch reads the two registers' bytes. -/
theorem storeIsSeenByTheNextFetch : Obligations.StoreIsSeenByTheNextFetch := by
  intro s x k hk hs hfits haddr
  obtain ⟨-, hstore⟩ := registersStored x
  obtain ⟨t, hexec, hstored, -, htpc, -⟩ := hstore s hs hfits
  refine ⟨t, hexec, ?_⟩
  have hpc : t.endStep.pc.toNat = s.base + k.val := by
    rw [State.endStep_pc, htpc, BitVec.toNat_add, State.base, haddr]
    exact Nat.mod_eq_of_lt (show s.pc.toNat + 2 < 65536 by omega)
  have hpeek : ∀ a, t.endStep.peek a = t.peek a := State.peek_congr (by simp) (by simp)
  have hhi := hstored k (Fin.le_def.2 (by omega))
  have hlo := hstored ⟨k.val + 1, by omega⟩ hk
  rw [State.fetch_of_inBounds (by rw [hpc, State.base]; omega), hpc, hpeek, hpeek, hhi, Nat.add_assoc, hlo]

end Sys2Proof.Machine
end

section
/-! PROOFS. Drawing a sprite, once and twice (44_display.md R181). -/

namespace Sys2Proof.Machine

open Sys2Proof.Claims

/-- What drawing a sprite does to every cell, and when it reports a hit. -/
theorem drawSprite_spec (fb : Framebuffer) (cx cy : Byte) {rows : List Byte} (hrows : rows.length ≤ 32) :
    (∀ px py, (drawSprite fb cx cy rows).1.cell px py =
      (fb.cell px py ^^ decide (SpriteCovers rows cx.toNat cy.toNat px py))) ∧
    ((drawSprite fb cx cy rows).2 = true ↔
      ∃ px py, SpriteCovers rows cx.toNat cy.toNat px py ∧ fb.cell px py = true) := by
  obtain ⟨hcell, hhit⟩ := drawRows_spec rows cx.toNat cy.toNat (fb, false) hrows
  exact ⟨hcell, by simpa [drawSprite] using hhit⟩

theorem exec_drw_of_inBounds {x y : RegIdx} {n : Nibble} {s : State} (h : n = 0 ∨ s.i.toNat + n.toNat ≤ 4096) :
    exec (.drw x y n) s =
      complete .next (({ s with
        fb := (drawSprite s.fb (s.reg x) (s.reg y) (s.peeks s.base n.toNat)).1
        dirty := true } : State).setFlag (drawSprite s.fb (s.reg x) (s.reg y) (s.peeks s.base n.toNat)).2) :=
  withAddresses_inBounds (h.imp_left (congrArg BitVec.toNat)) (.drw x y n) s _

/-- Settles O44: a sprite has at most 15 rows, so each cell is toggled once at most; the flag write comes last. -/
theorem spriteIsXoredWithCollision : Obligations.SpriteIsXoredWithCollision := by
  refine fun x y n => ⟨.of_encode (formatXYN_toNat 0xD#4 x y n) (decodeWord_encode _), fun s hfits => ?_⟩
  have hn := n.isLt
  obtain ⟨hcell, hhit⟩ := drawSprite_spec s.fb (s.reg x) (s.reg y)
    (rows := s.peeks s.base n.toNat) (by rw [State.peeks_length]; omega)
  refine ⟨_, exec_drw_of_inBounds hfits, ⟨hcell, fun hset => ?_, fun hclear => ?_⟩, rfl, rfl,
    (((Unchanged.refl _ s).setDisplay rfl _ _).setFlag List.mem_cons_self _).applyOutcome _⟩
  · rw [State.reg_congr (State.applyOutcome_v _ _), State.reg_setFlag, if_pos rfl, hhit.2 hset]
    rfl
  · rw [State.reg_congr (State.applyOutcome_v _ _), State.reg_setFlag, if_pos rfl,
      Bool.eq_false_iff.2 (mt hhit.1 hclear)]
    rfl

/-- Settles O45: the second draw covers the same cells, so it toggles back what the first toggled, and it finds a
covered cell set exactly if the first found it clear. -/
theorem drawingTwiceRestoresTheScreen : Obligations.DrawingTwiceRestoresTheScreen := by
  intro x y n s hfits
  obtain ⟨-, hdraw⟩ := spriteIsXoredWithCollision x y n
  obtain ⟨t, hexec, ⟨hcell, -, -⟩, -⟩ := hdraw s hfits
  refine ⟨t, hexec, fun u hufb hui hux huy hupeek => ?_⟩
  obtain ⟨w, hexec', ⟨hcell', hset, hclear⟩, -⟩ := hdraw u (hui ▸ hfits)
  simp only [hui, hux, huy, hupeek, hufb] at hcell' hset hclear
  refine ⟨w, hexec', Framebuffer.ext_cell fun px py => ?_, fun hflag => ?_, ?_⟩
  · rw [hcell', hcell, Bool.xor_assoc, Bool.xor_self, Bool.xor_false]
  · by_contra hno
    refine absurd (hflag.symm.trans (hclear ?_)) (by decide)
    rintro ⟨px, py, hcovered, hon⟩
    rw [hcell, decide_eq_true hcovered, Bool.xor_true] at hon
    exact hno ⟨px, py, hcovered, by simpa using hon⟩
  · rintro ⟨px, py, hcovered, hoff⟩
    exact hset ⟨px, py, hcovered, by rw [hcell, decide_eq_true hcovered, hoff]; rfl⟩

end Sys2Proof.Machine
end
